-- ==== Sys2Proof/Word.lean ====
section
/-! DEFINITION. The word types of the block (spec/00_scope.md R6, R13, R14): every state word, seed word, raw
draw and result is an unsigned 64-bit word, bit 0 least significant; `u128` occurs in the PCG update only.
Addition, subtraction and multiplication of `BitVec` are modulo `2 ^ width` with no flag, which is R15; `^^^`,
`&&&`, `|||` are R16; `<<<` and `>>>` are the logical shifts of R17. -/

namespace Sys2Proof

/-- `u64` (R14): a port word, a state word, a seed word, a raw draw or a result. -/
abbrev Word := BitVec 64

/-- `u128` (R14): the state value of the permuted congruential generator. -/
abbrev DWord := BitVec 128

/-- One byte. The block itself has none (R61); the host-side compositions and a narrow transport do. -/
abbrev Byte := BitVec 8

end Sys2Proof
end

