-- ==== Sys2Proof/Config.lean ====
section
/-! DEFINITION. What an implementation of the block fixes at build time (spec/10_state.md R37: read-only constants
of the build, not registers). The values this hardware takes are `Machine.hardware` in Machine/Hardware.lean; the
rules of the algorithms take the parameters as an argument, as spec/00_scope.md R8 to R10 ask of a model. -/

namespace Sys2Proof.Config

/-- The parameters of spec/00_scope.md R8 (`SEED_DEFAULT`), R9 (`XS128P_SHIFT` = (A, B)) and R10 (`PCG_MUL`,
`PCG_INC`). -/
structure Params where
  seedDefault : Word
  xs128pShiftA : Nat
  xs128pShiftB : Nat
  pcgMul : DWord
  pcgInc : DWord
  deriving DecidableEq, Repr

/-- The legal parameter values: `SEED_DEFAULT` is not zero (R8), the shift pair is (17, 26) or (18, 5) (R9), and
`PCG_MUL` is odd (R10). -/
abbrev Params.Legal (p : Params) : Prop :=
  p.seedDefault ≠ 0 ∧
  (p.xs128pShiftA = 17 ∧ p.xs128pShiftB = 26 ∨ p.xs128pShiftA = 18 ∧ p.xs128pShiftB = 5) ∧
  p.pcgMul.getLsbD 0 = true

/-- `SLICE_LEN_MAX` (R11): the largest number of seed words one `SEEDV` can carry. -/
def sliceLenMax : Nat := 65535

/-- The two byte orders in which a port word can travel over a narrower transport (R12). -/
inductive ByteOrder where
  | little
  | big
  deriving DecidableEq, Repr, Inhabited

/-- `PORT_BYTE_ORDER` (R12, spec/92_eei_decisions.md D27): OPEN, so it has no body; no rule of the block reads it, and
only the host-side `Machine.portBytes` uses it. Log entry 12. -/
opaque portByteOrder : ByteOrder

end Sys2Proof.Config
end

