-- ==== Sys2Proof/Syntax.lean ====
section
/-! DEFINITION. The algorithms `ALG` can select and the seven commands of spec/opcode_table.json, as syntax. -/

namespace Sys2Proof

/-- The ten algorithms of spec/10_state.md R32, in the order of their numbers 0 to 9. The reserved numbers 10 to 15
are no algorithm: `ALG` can never hold them (R35). -/
inductive Alg where
  | sm64
  | xs64s
  | xs128p
  | xs1024s
  | xo128p
  | xo128ss
  | xo256p
  | xo256ss
  | mt64
  | pcg
  deriving DecidableEq, Repr

/-- The commands of spec/30_encoding.md R84. `SELECT` carries its 4-bit `ALGF` field as it stands, the reserved
numbers included: such a header still is a `SELECT`, which faults when it executes (R85, R88 c). -/
inductive Instr where
  /-- `SELECT alg` (R111). -/
  | select (algf : BitVec 4)
  /-- `SEED s` (R112). -/
  | seed (s : Word)
  /-- `SEEDV [w0, ..., w(L-1)]` (R113); `LEN` is the length of the list. -/
  | seedv (words : List Word)
  /-- `NEXT` (R114). -/
  | next
  /-- `UNIF64 n` (R243). -/
  | unif64 (n : Word)
  /-- `UNIF32 n` (R244). -/
  | unif32 (n : Word)
  /-- `UINTN n` (R245). -/
  | uintn (n : Word)
  deriving DecidableEq, Repr

end Sys2Proof
end

