-- ==== Sys2Proof/WellFormed.lean ====
section
/-! DEFINITION. Which terms of `Instr` a command stream can express. -/

namespace Sys2Proof

/-- The one check (spec/00_scope.md R11, spec/30_encoding.md R86): a seed slice has at most `SLICE_LEN_MAX` words,
since `LEN` has 16 bits. Every other operand is as wide as its field by its type. -/
def Instr.wellFormed : Instr → Bool
  | .select _ => true
  | .seed _ => true
  | .seedv words => words.length ≤ Config.sliceLenMax
  | .next => true
  | .unif64 _ => true
  | .unif32 _ => true
  | .uintn _ => true

end Sys2Proof
end

