-- ==== Sys2Proof/Decode.lean ====
section
/-! DEFINITION. The decoder, total on any list of port words and rejecting by name, and after it the encoder, both
from spec/30_encoding.md R80 to R88. -/

namespace Sys2Proof

/-! ## Header fields (R81) -/

/-- `OPC = H[63:56]`. -/
def opcOf (h : Word) : BitVec 8 := h.extractLsb' 56 8

/-- `ALGF = H[55:52]`. -/
def algfOf (h : Word) : BitVec 4 := h.extractLsb' 52 4

/-- `RSV = H[51:16]`. -/
def rsvOf (h : Word) : BitVec 36 := h.extractLsb' 16 36

/-- `LEN = H[15:0]`. -/
def lenOf (h : Word) : BitVec 16 := h.extractLsb' 0 16

/-! ## Algorithm numbers (R32, R85) -/

/-- The number of an algorithm. -/
def algNumber : Alg → BitVec 4
  | .sm64 => 0
  | .xs64s => 1
  | .xs128p => 2
  | .xs1024s => 3
  | .xo128p => 4
  | .xo128ss => 5
  | .xo256p => 6
  | .xo256ss => 7
  | .mt64 => 8
  | .pcg => 9

/-- The algorithm an `ALGF` value names; 10 to 15 are reserved (R85). -/
def algOfNumber (algf : BitVec 4) : Option Alg :=
  match algf.toNat with
  | 0 => some .sm64
  | 1 => some .xs64s
  | 2 => some .xs128p
  | 3 => some .xs1024s
  | 4 => some .xo128p
  | 5 => some .xo128ss
  | 6 => some .xo256p
  | 7 => some .xo256ss
  | 8 => some .mt64
  | 9 => some .pcg
  | _ => none

/-! ## Framing -/

/-- `PW(H)` (R83): how many payload words follow a header, a function of `OPC` and `LEN` only, taken before any
other check. -/
def payloadCount (h : Word) : Nat :=
  match (opcOf h).toNat with
  | 2 => 1
  | 3 => (lenOf h).toNat
  | 5 => 1
  | 6 => 1
  | 7 => 1
  | _ => 0

/-- The first `k` words of a list and what follows them; nothing if there are fewer. -/
def takeWords : Nat → List Word → Option (List Word × List Word)
  | 0, ws => some ([], ws)
  | _ + 1, [] => none
  | k + 1, w :: ws =>
    match takeWords k ws with
    | some (p, rest) => some (w :: p, rest)
    | none => none

/-! ## Decoding -/

/-- Why a header is no command (R88): class (a), an opcode outside 0x01 to 0x07; class (b), a must-be-zero field
that is not zero. -/
inductive IllegalHeader where
  | illegalOpcode
  | illegalField
  deriving DecidableEq, Repr

/-- Why no instruction is read from a list of words: the command is not complete yet (R110 step 1), or its header is
illegal, in which case the words after the command are given (its payload is consumed all the same, R83). -/
inductive Reject where
  | incomplete
  | illegal (why : IllegalHeader) (rest : List Word)
  deriving DecidableEq, Repr

/-- The one payload word of a C1 command (R82). `payloadCount` is 1 for these, so the list is never empty here. -/
def operandOf (p : List Word) : Word := p.headD 0

/-- Classify a header in the order of R88 and, in classes (c) and (d), read the command; `p` is its payload. A
reserved `ALGF` of a `SELECT` (class c) is left to the command's meaning. -/
def decodeCommand (h : Word) (p : List Word) : Except IllegalHeader Instr :=
  match (opcOf h).toNat with
  | 1 => if rsvOf h = 0 ∧ lenOf h = 0 then .ok (.select (algfOf h)) else .error .illegalField
  | 2 => if rsvOf h = 0 ∧ algfOf h = 0 ∧ lenOf h = 0 then .ok (.seed (operandOf p)) else .error .illegalField
  | 3 => if rsvOf h = 0 ∧ algfOf h = 0 then .ok (.seedv p) else .error .illegalField
  | 4 => if rsvOf h = 0 ∧ algfOf h = 0 ∧ lenOf h = 0 then .ok .next else .error .illegalField
  | 5 => if rsvOf h = 0 ∧ algfOf h = 0 ∧ lenOf h = 0 then .ok (.unif64 (operandOf p)) else .error .illegalField
  | 6 => if rsvOf h = 0 ∧ algfOf h = 0 ∧ lenOf h = 0 then .ok (.unif32 (operandOf p)) else .error .illegalField
  | 7 => if rsvOf h = 0 ∧ algfOf h = 0 ∧ lenOf h = 0 then .ok (.uintn (operandOf p)) else .error .illegalField
  | _ => .error .illegalOpcode

/-- Read one command from the words of the command stream (R80): the instruction and the words after it. -/
def decode : List Word → Except Reject (Instr × List Word)
  | [] => .error .incomplete
  | h :: ws =>
    match takeWords (payloadCount h) ws with
    | none => .error .incomplete
    | some (p, rest) =>
      match decodeCommand h p with
      | .ok i => .ok (i, rest)
      | .error why => .error (.illegal why rest)

/-! ## The words of a row of spec/opcode_table.json -/

/-- `k` words from the bits of a number, the least significant 64 bits first. -/
def wordsOf : Nat → Nat → List Word
  | 0, _ => []
  | k + 1, v => BitVec.ofNat 64 v :: wordsOf k (v >>> 64)

/-- The words of the instruction whose bits are `w`, `nbits` of them given and the rest zero: the header, and as many
payload words as the header asks for. -/
def tableWords (nbits w : Nat) : List Word :=
  let v := w % 2 ^ nbits
  BitVec.ofNat 64 v :: wordsOf (payloadCount (BitVec.ofNat 64 v)) (v >>> 64)

/-- The instruction the decoder reads from an instruction whose bits are `w`. -/
def decodeTableWord (nbits w : Nat) : Option Instr :=
  match decode (tableWords nbits w) with
  | .ok (i, _) => some i
  | .error _ => none

/-! ## Encoding -/

/-- A header with `RSV = 0` (R81). -/
def headerOf (opc : BitVec 8) (algf : BitVec 4) (len : BitVec 16) : Word :=
  opc ++ algf ++ (0 : BitVec 36) ++ len

/-- The words of a well-formed instruction, in the order they enter the command port (R82, R84). -/
def encode : Instr → List Word
  | .select algf => [headerOf 0x01 algf 0]
  | .seed s => [headerOf 0x02 0 0, s]
  | .seedv words => headerOf 0x03 0 (BitVec.ofNat 16 words.length) :: words
  | .next => [headerOf 0x04 0 0]
  | .unif64 n => [headerOf 0x05 0 0, n]
  | .unif32 n => [headerOf 0x06 0 0, n]
  | .uintn n => [headerOf 0x07 0 0, n]

end Sys2Proof
end

