-- ==== Sys2Proof/Machine/State.lean ====
section
/-! DEFINITION. The state of the block as plain data, what can stop a step, and the state after reset. The whole
architectural state is `ALG`, `S` and `CUR` (spec/10_state.md R30); beside it stand the assembly buffer of R42, the
two ports of R43, and the one condition of R247 that outlives a step. -/

namespace Sys2Proof.Machine

/-- The state array `S[0..311]` of 64-bit words (R31), which is also the block's only storage (R60). -/
abbrev Words := Vector Word 312

/-- One generator instance (R24, R41): the contents of `ALG`, `S` and `CUR`. -/
structure Generator where
  /-- `ALG`, 4 bits (R35). The type has the ten legal values only: 10 to 15 can never be held. DESIGN CHOICE, log
  entry 6; its 4-bit value is `algNumber`. -/
  alg : Alg
  /-- `S[0..311]` (R31). -/
  S : Words
  /-- `CUR`, 9 bits (R36): the ring cursor of XS1024S, the buffer index of MT64 (313 unseeded, 312 exhausted), 0 for
  every other algorithm. -/
  cur : BitVec 9
  deriving DecidableEq, Repr

/-- The status codes of a response (R90); codes 6 to 15 are never produced, so they have no constructor. -/
inductive Status where
  | ok
  | illegalOpcode
  | illegalField
  | algReserved
  | seedvUnsupported
  | badBound
  deriving DecidableEq, Repr

/-- A response `(ST, DATA)` (R90). -/
structure Response where
  st : Status
  data : Word
  deriving DecidableEq, Repr

/-- What the host does at the block's inputs, in the order it does it: it sends a word on the command port (R80), or it
pulses the reset input (R300). DESIGN CHOICE, log entries 2 and 11. -/
inductive PortEvent where
  | word (w : Word)
  /-- A pulse of the reset input. Reset waits for nothing (R301, R302), so it can arrive when some of the words sent
  before it are not taken yet: `finished` says how many more commands the block finishes before the pulse arrives. The
  command the block is then assembling, executing or about to take is abandoned. -/
  | reset (finished : Nat)
  deriving DecidableEq, Repr

/-- The state of the block and of its ports. -/
structure State where
  /-- `ALG`, `S`, `CUR`: the whole architectural state (R30). -/
  gen : Generator
  /-- The header and payload words received so far of a command being assembled (R42); empty when a header is due. -/
  asm : List Word
  /-- The block is inside a sampler command whose retry loop never accepts a raw value (R247): it takes no further
  word and gives no response; only reset ends this (R301). DESIGN CHOICE, log entry 4. -/
  retrying : Bool
  /-- The model's own field: what the host does at the inputs and the block has not taken yet, earliest first. DESIGN CHOICE, log
  entry 2. -/
  port : List PortEvent
  /-- The responses produced and not yet taken by the host, oldest first (R43, R90). -/
  out : List Response
  deriving DecidableEq, Repr

/-- Reasons for which a step stops. None is a fault of the spec: the five faults of spec/60_exceptions.md R271 are
responses, after which the machine goes on. -/
inductive Fault where
  /-- Raised by a draw of XS1024S or MT64 whose `CUR` is no index into `S[0..311]` and none of the two markers 312 and
  313 of MT64: `S[CUR]` would be a word that does not exist (R31, R62). R45 says that no command stream leads there.
  Safe: it stops where the spec gives nothing. DESIGN CHOICE, log entry 5. -/
  | cursorOutOfRange
  deriving DecidableEq, Repr

/-- Reasons for which a step is refused. -/
inductive Refusal where
  /-- Raised by `exec` for an instruction that has no meaning yet; no instruction of this model is such a one. Safe. -/
  | notModelled (mnemonic : String)
  deriving DecidableEq, Repr

/-- The machine right after reset (R44, R300): a fresh SM64 instance, every word 0, `CUR = 0`, no command partly
assembled, no response pending. The host has sent nothing yet (log entry 1). -/
def State.reset : State where
  gen := { alg := .sm64, S := Vector.replicate 312 0, cur := 0 }
  asm := []
  retrying := false
  port := []
  out := []

end Sys2Proof.Machine
end

