-- ==== Sys2Proof/Machine/Flags.lean ====
section
/-! DEFINITION. The status codes. The block has no flags, condition codes or predicates (spec/10_state.md R39): no
command sets a carry, zero, overflow or error flag, and the status of a command is in its response only. What stands
here is the one thing of that kind the spec gives, the code of each status. -/

namespace Sys2Proof.Machine

/-- The 4-bit code `ST` of a status (spec/30_encoding.md R90, spec/60_exceptions.md R271). -/
def statusCode : Status → BitVec 4
  | .ok => 0
  | .illegalOpcode => 1
  | .illegalField => 2
  | .algReserved => 3
  | .seedvUnsupported => 4
  | .badBound => 5

end Sys2Proof.Machine
end

