-- ==== Sys2Proof/Machine/Operands.lean ====
section
/-! DEFINITION. How the rules read and write the parts of words and of the state array: rotations and halves of a
word (spec/00_scope.md R18, R20), the words each algorithm uses (spec/10_state.md R32), and the loop over `S` that
the Mersenne Twister's rules share. -/

namespace Sys2Proof.Machine

/-- `rotl64(a, k)` for `0 <= k < 64` (R18). -/
def rotl64 (a : Word) (k : Nat) : Word :=
  if k = 0 then a else (a <<< k) ||| (a >>> (64 - k))

/-- `rotr64(a, k)` for `0 <= k < 64` (R18). -/
def rotr64 (a : Word) (k : Nat) : Word :=
  if k = 0 then a else (a >>> k) ||| (a <<< (64 - k))

/-- `hi32(v) = v[63:32]`, as a 64-bit word (R20). -/
def hi32 (v : Word) : Word := v >>> 32

/-- `trunc_32(v) = v[31:0]` (R20). -/
def trunc32 (v : Word) : BitVec 32 := v.extractLsb' 0 32

/-- `NW(ALG)` (R32): how many words of `S` the algorithm uses. -/
def stateWords : Alg → Nat
  | .sm64 => 1
  | .xs64s => 1
  | .xs128p => 2
  | .xs1024s => 16
  | .xo128p => 2
  | .xo128ss => 2
  | .xo256p => 4
  | .xo256ss => 4
  | .mt64 => 312
  | .pcg => 2

/-- `S[i ..] <- ws`, word by word (R21). The rules use it with a prefix of `S` only, so no word falls outside. -/
def writeWords (S : Words) (i : Nat) : List Word → Words
  | [] => S
  | w :: ws => writeWords (S.setIfInBounds i w) (i + 1) ws

/-- `f` at the indices `i`, `i + 1`, ..., `k` of them, in increasing order and in place. -/
def forWords (f : Fin 312 → Words → Words) : Nat → Fin 312 → Words → Words
  | 0, _, S => S
  | k + 1, i, S => forWords f k (i + 1) (f i S)

end Sys2Proof.Machine
end

