-- ==== Sys2Proof/Machine/Hardware.lean ====
section
/-! DEFINITION. The parameter values this hardware takes. -/

namespace Sys2Proof.Machine

/-- `SEED_DEFAULT` (spec/00_scope.md R8), `XS128P_SHIFT` (R9), `PCG_MUL` and `PCG_INC` (R10, spec/46_pcg.md R230). -/
def hardware : Config.Params where
  seedDefault := 0x9E3779B97F4A7C15
  xs128pShiftA := 17
  xs128pShiftB := 26
  pcgMul := 0x2360ED051FC65DA44385DF649FCCF645
  pcgInc := 0x5851F42D4C957F2D14057B7EF767814F

end Sys2Proof.Machine
end

