-- ==== Sys2Proof/Machine/Ops.lean ====
section
/-! DEFINITION. The named operations the meanings share: ending a command with a response, raising a fault, making a
fresh instance, reset, and what the host can do at the ports. The block has no byte-addressed memory
(spec/20_memory.md R60); its storage is the state array. -/

namespace Sys2Proof.Machine

/-- The state with another instance in `ALG`, `S` and `CUR`. -/
def State.withGen (s : State) (g : Generator) : State := { s with gen := g }

/-- The end of a command that took effect, `respond(OK, v)` (spec/00_scope.md R22): its response joins the responses
pending. -/
def State.respond (s : State) (v : Word) : State :=
  { s with out := s.out ++ [{ st := .ok, data := v }] }

/-- Taking a fault, `raise <Fault>` (R22; spec/60_exceptions.md R270, R273): the fault is reported in the command's one
response with data 0; nothing is saved, no mode changes, no control goes anywhere, and `ALG`, `S` and `CUR` stay. There
is no return from a fault (R274). -/
def State.raise (s : State) (f : Status) : State :=
  { s with out := s.out ++ [{ st := f, data := 0 }] }

/-- A fresh instance of an algorithm (spec/40_command_contract.md R111): all words zero, and `CUR` at the MT64 marker
"unseeded" or 0. -/
def freshGenerator (a : Alg) : Generator where
  alg := a
  S := Vector.replicate 312 0
  cur := match a with
    | .mt64 => 313
    | .sm64 | .xs64s | .xs128p | .xs1024s | .xo128p | .xo128ss | .xo256p | .xo256ss | .pcg => 0

/-- The words on the command port up to the first reset. -/
def portWords : List PortEvent → List Word
  | .word w :: es => w :: portWords es
  | .reset _ :: _ => []
  | [] => []

/-- What happens at the inputs after those words: nothing, or a reset and what follows it. -/
def portTail : List PortEvent → List PortEvent
  | .word _ :: es => portTail es
  | .reset k :: es => .reset k :: es
  | [] => []

/-- A command is finished: a reset that stands next at the inputs is one command nearer (R301). -/
def countFinished : List PortEvent → List PortEvent
  | .reset (k + 1) :: es => .reset k :: es
  | es => es

/-- The first reset at the inputs is to arrive one command later. -/
def allowOneMore : List PortEvent → List PortEvent
  | .word w :: es => .word w :: allowOneMore es
  | .reset k :: es => .reset (k + 1) :: es
  | [] => []

/-- Reset (spec/70_reset_and_hazards.md R300, R301): every piece of state takes its reset value, whatever the block was
doing; what the host does afterwards still lies ahead. -/
def afterReset (ahead : List PortEvent) : State :=
  { State.reset with port := ahead }

/-! ## The host's side of the ports -/

/-- The host sends words on the command port. -/
def State.send (s : State) (ws : List Word) : State :=
  { s with port := s.port ++ ws.map .word }

/-- The host sends one command. -/
def State.sendCommand (s : State) (i : Instr) : State := s.send (encode i)

/-- The host pulses the reset input; the pulse arrives when the block has finished `finished` more of the commands sent
before it, or earlier if it comes to wait for words or is inside a command that never ends. -/
def State.pulseReset (s : State) (finished : Nat) : State :=
  { s with port := s.port ++ [.reset finished] }

/-- The host takes the oldest pending response; it is not readable a second time (R43). -/
def State.takeResponse (s : State) : Option Response × State :=
  (s.out.head?, { s with out := s.out.tail })

end Sys2Proof.Machine
end

