-- ==== Sys2Proof/Machine/SplitMix.lean ====
section
/-! DEFINITION. splitmix64 (spec/42_splitmix64.md) and the seed-expansion unit built on it
(spec/41_seed_expansion.md). -/

namespace Sys2Proof.Machine

/-- The increment of R150. -/
def smIncrement : Word := 0x9E3779B97F4A7C15

/-- The mixing of R150, from the new state to the output. -/
def smMix (z' : Word) : Word :=
  let a := z'
  let a := (a ^^^ (a >>> 30)) * 0xBF58476D1CE4E5B9
  let a := (a ^^^ (a >>> 27)) * 0x94D049BB133111EB
  a ^^^ (a >>> 31)

/-- `SM(z) -> (z', out)` (R150). -/
def sm (z : Word) : Word × Word :=
  let z' := z + smIncrement
  (z', smMix z')

/-- `EXPAND_SCALAR(seed, N)` (R140): the first `N` outputs of a private splitmix64 that starts at `seed`. -/
def expandScalar : Word → Nat → List Word
  | _, 0 => []
  | z, n + 1 =>
    let (z', out) := sm z
    out :: expandScalar z' n

/-- `EXPAND_SLICE(words, N)` (R141): the first `min(L, N)` words verbatim, and the rest expanded from the last copied
word, or from 0 if none was copied. -/
def expandSlice (words : List Word) (n : Nat) : List Word :=
  let copied := words.take n
  copied ++ expandScalar (copied.getLastD 0) (n - copied.length)

/-- `SEED s` with `ALG = 0` (R151): the seed becomes the state word as it stands. -/
def seedSm64 (s : Word) (g : Generator) : Generator :=
  { g with S := g.S.set 0 s }

/-- The draw with `ALG = 0` (R152). -/
def drawSm64 (g : Generator) : Word × Generator :=
  let (z', v) := sm g.S[0]
  (v, { g with S := g.S.set 0 z' })

end Sys2Proof.Machine
end

