-- ==== Sys2Proof/Machine/Xorshift.lean ====
section
/-! DEFINITION. The xorshift family, ALG 1 to 3 (spec/43_xorshift.md). -/

namespace Sys2Proof.Machine

/-- `SEED s` with `ALG` in 1 to 3 (R161): a zero scalar is replaced by `SEED_DEFAULT`, here and nowhere else (R143). -/
def seedXorshift (P : Config.Params) (s : Word) (g : Generator) : Generator :=
  let s' := if s = 0 then P.seedDefault else s
  { g with S := writeWords g.S 0 (expandScalar s' (stateWords g.alg)), cur := 0 }

/-- `SEEDV words` with `ALG` in 1 to 3 (R162). -/
def seedSliceXorshift (words : List Word) (g : Generator) : Generator :=
  { g with S := writeWords g.S 0 (expandSlice words (stateWords g.alg)), cur := 0 }

/-- The draw of xorshift64* (R163): the stored state is the value before the multiplication. -/
def drawXs64s (g : Generator) : Word × Generator :=
  let x := g.S[0]
  let x := x ^^^ (x >>> 12)
  let x := x ^^^ (x <<< 25)
  let x := x ^^^ (x >>> 27)
  (x * 2685821657736338717, { g with S := g.S.set 0 x })

/-- The draw of xorshift128+ (R164): the shift-xor is applied to the word that stays, `S[1]`. -/
def drawXs128p (P : Config.Params) (g : Generator) : Word × Generator :=
  let s0 := g.S[0]
  let s1 := g.S[1]
  let t := s1 ^^^ (s1 <<< 23)
  let n1 := t ^^^ s0 ^^^ (t >>> P.xs128pShiftA) ^^^ (s0 >>> P.xs128pShiftB)
  (s0 + s1, { g with S := (g.S.set 1 n1).set 0 s1 })

/-- `(p + 1) & 15` (R165): the next place in the ring of 16 words. -/
def ringNext (p : BitVec 9) : BitVec 9 := (p + 1) &&& 15

/-- The advanced ring cursor is an index of `S`, whatever the cursor was (spec/20_memory.md R62). -/
theorem ringNext_lt (p : BitVec 9) : (ringNext p).toNat < 312 := by
  have h : (ringNext p).toNat ≤ 15 := by
    simp only [ringNext, BitVec.toNat_and]
    exact Nat.and_le_right
  omega

/-- The draw of xorshift1024* (R165): the word at the advanced cursor changes. A cursor that is no index of `S` has
nothing to read. -/
def drawXs1024s (g : Generator) : Except Fault (Word × Generator) :=
  if h : g.cur.toNat < 312 then
    let s0 := g.S[g.cur.toNat]
    let p := ringNext g.cur
    let s1 := g.S[p.toNat]'(ringNext_lt g.cur)
    let s1 := s1 ^^^ (s1 <<< 31)
    let s1 := s1 ^^^ (s1 >>> 11)
    let s0 := s0 ^^^ (s0 >>> 30)
    let x := s0 ^^^ s1
    .ok (x * 1181783497276652981, { g with S := g.S.set p.toNat x (ringNext_lt g.cur), cur := p })
  else .error .cursorOutOfRange

end Sys2Proof.Machine
end

