-- ==== Sys2Proof/Machine/Xoroshiro.lean ====
section
/-! DEFINITION. The rotate-shift-rotate family, ALG 4 to 7 (spec/44_xoroshiro_xoshiro.md). -/

namespace Sys2Proof.Machine

/-- `SEED s` with `ALG` in 4 to 7 (R180): no substitution for a zero scalar; `CUR` is not written. -/
def seedXoroshiro (s : Word) (g : Generator) : Generator :=
  { g with S := writeWords g.S 0 (expandScalar s (stateWords g.alg)) }

/-- `XO128_UPDATE(s0, s1)` (R181). -/
def xo128Update (s0 s1 : Word) : Word × Word :=
  let x := s1 ^^^ s0
  (rotl64 s0 24 ^^^ x ^^^ (x <<< 16), rotl64 x 37)

/-- `XO256_UPDATE(w0, w1, w2, w3)` (R182): the assignments are sequential. -/
def xo256Update (w0 w1 w2 w3 : Word) : Word × Word × Word × Word :=
  let t := w1 <<< 17
  let w2 := w2 ^^^ w0
  let w3 := w3 ^^^ w1
  let w1 := w1 ^^^ w2
  let w0 := w0 ^^^ w3
  let w2 := w2 ^^^ t
  let w3 := rotl64 w3 45
  (w0, w1, w2, w3)

/-- The "+" output of a first and a last word (R183, R185). -/
def sumOutput (first last : Word) : Word := first + last

/-- The "**" output of the second word (R184, R186). -/
def scrambledOutput (second : Word) : Word := rotl64 (second * 5) 7 * 9

/-- The state array after a two-word update (R183, R184). -/
def stepXo128 (g : Generator) : Generator :=
  let (n0, n1) := xo128Update g.S[0] g.S[1]
  { g with S := (g.S.set 0 n0).set 1 n1 }

/-- The state array after a four-word update (R185, R186). -/
def stepXo256 (g : Generator) : Generator :=
  let (n0, n1, n2, n3) := xo256Update g.S[0] g.S[1] g.S[2] g.S[3]
  { g with S := (((g.S.set 0 n0).set 1 n1).set 2 n2).set 3 n3 }

/-- The draw of xoroshiro128+ (R183); the output is computed before the update. -/
def drawXo128p (g : Generator) : Word × Generator :=
  (sumOutput g.S[0] g.S[1], stepXo128 g)

/-- The draw of xoroshiro128** (R184): the scrambler reads the second word, before the update. -/
def drawXo128ss (g : Generator) : Word × Generator :=
  (scrambledOutput g.S[1], stepXo128 g)

/-- The draw of xoshiro256+ (R185); the output is computed before the update. -/
def drawXo256p (g : Generator) : Word × Generator :=
  (sumOutput g.S[0] g.S[3], stepXo256 g)

/-- The draw of xoshiro256** (R186); the output is computed before the update. -/
def drawXo256ss (g : Generator) : Word × Generator :=
  (scrambledOutput g.S[1], stepXo256 g)

end Sys2Proof.Machine
end

