-- ==== Sys2Proof/Machine/Mersenne.lean ====
section
/-! DEFINITION. The 64-bit Mersenne Twister, ALG 8 (spec/45_mt19937_64.md). Indices are `Fin 312`, whose addition is
the "modulo 312" of the rules. -/

namespace Sys2Proof.Machine

/-- `CUR = 312`: seeded, buffer exhausted (R201). -/
def mtExhausted : BitVec 9 := 312

/-- `CUR = 313`: unseeded (R201). -/
def mtUnseeded : BitVec 9 := 313

/-- The upper mask `UM`, bits 63 down to 31 (R200; spec/90_conflicts.md C2). -/
def mtUpperMask : Word := 0xFFFFFFFF80000000

/-- The lower mask `LM`, bits 30 down to 0 (R200). -/
def mtLowerMask : Word := 0x000000007FFFFFFF

/-- `mag01[b]` for a bit `b`: 0, or the matrix coefficient `A` (R200). -/
def mtMag01 (b : Bool) : Word := if b then 0xB5026F5AA96619E9 else 0

/-- The default seed of R202 and R206. -/
def mtDefaultSeed : Word := 5489

/-! ## Seeding -/

/-- One word of the fill of R202, for `i` in 1 to 311. -/
def mtFillAt (i : Fin 312) (S : Words) : Words :=
  let p := S[i - 1]
  S.set i (6364136223846793005 * (p ^^^ (p >>> 62)) + BitVec.ofNat 64 i.val)

/-- `MT_FILL(s)` on the state array (R202). -/
def mtFillWords (s : Word) (S : Words) : Words :=
  forWords mtFillAt 311 1 (S.set 0 (if s = 0 then mtDefaultSeed else s))

/-- `MT_FILL(s)` (R202): `CUR` becomes "seeded, buffer exhausted". -/
def mtFill (s : Word) (g : Generator) : Generator :=
  { g with S := mtFillWords s g.S, cur := mtExhausted }

/-- The counters and the array inside the mixing passes of R203. -/
structure MixState where
  S : Words
  i : Fin 312
  j : Nat
  deriving DecidableEq, Repr

/-- "`i <- i + 1`; if `i >= 312`: `S[0] <- S[311]`; `i <- 1`" (R203), with the word at `i` already mixed. -/
def mtAdvance (S : Words) (i : Fin 312) : Words × Fin 312 :=
  if i = 311 then (S.set 0 S[311], 1) else (S, i + 1)

/-- The non-linear part shared by the two passes of R203: `S[i] ^ ((S[i-1] ^ (S[i-1] >> 62)) * mult)`. -/
def mtMixWord (S : Words) (i : Fin 312) (mult : Word) : Word :=
  let p := S[i - 1]
  S[i] ^^^ ((p ^^^ (p >>> 62)) * mult)

/-- One step of the first pass (R203). `j` is below the length of `key` at all times, so the default is never read. -/
def mtFirstMix (key : List Word) (m : MixState) : MixState :=
  let v := mtMixWord m.S m.i 3935559000370003845 + key.getD m.j 0 + BitVec.ofNat 64 m.j
  let (S, i) := mtAdvance (m.S.set m.i v) m.i
  let j := m.j + 1
  { S := S, i := i, j := if j ≥ key.length then 0 else j }

/-- One step of the second pass (R203). -/
def mtSecondMix (m : MixState) : MixState :=
  let v := mtMixWord m.S m.i 2862933555777941757 - BitVec.ofNat 64 m.i.val
  let (S, i) := mtAdvance (m.S.set m.i v) m.i
  { S := S, i := i, j := m.j }

/-- `f` applied `n` times. -/
def repeatMix (f : MixState → MixState) : Nat → MixState → MixState
  | 0, m => m
  | n + 1, m => repeatMix f n (f m)

/-- The key of R203: an empty slice is treated as the slice `[0]`. -/
def mtKey (words : List Word) : List Word :=
  match words with
  | [] => [0]
  | w :: ws => w :: ws

/-- `SEEDV words` with `ALG = 8` (R203). The counter `i` runs on from the first pass into the second; the last step
replaces word 0 by `2 ^ 63`. -/
def seedSliceMt (words : List Word) (g : Generator) : Generator :=
  let key := mtKey words
  let filled := mtFill 19650218 g
  let first := repeatMix (mtFirstMix key) (max 312 key.length) { S := filled.S, i := 1, j := 0 }
  let second := repeatMix mtSecondMix 311 first
  { filled with S := second.S.set 0 0x8000000000000000 }

/-! ## Twist, temper, draw -/

/-- One word of the twist (R204), in place. -/
def mtTwistAt (i : Fin 312) (S : Words) : Words :=
  let x := (S[i] &&& mtUpperMask) ||| (S[i + 1] &&& mtLowerMask)
  S.set i (S[i + 156] ^^^ (x >>> 1) ^^^ mtMag01 (x.getLsbD 0))

/-- `MT_TWIST()` (R204): all 312 words in increasing order; `CUR` becomes 0. -/
def mtTwist (g : Generator) : Generator :=
  { g with S := forWords mtTwistAt 312 0 g.S, cur := 0 }

/-- `MT_TEMPER(x)` (R205). -/
def mtTemper (x : Word) : Word :=
  let x := x ^^^ ((x >>> 29) &&& 0x5555555555555555)
  let x := x ^^^ ((x <<< 17) &&& 0x71D67FFFEDA60000)
  let x := x ^^^ ((x <<< 37) &&& 0xFFF7EEE000000000)
  x ^^^ (x >>> 43)

/-- The instance a draw reads from (R206): an unseeded one is seeded with 5489 first, an exhausted one twists. -/
def mtReady (g : Generator) : Generator :=
  let g := if g.cur = mtUnseeded then mtFill mtDefaultSeed g else g
  if g.cur = mtExhausted then mtTwist g else g

/-- The draw of the Mersenne Twister (R206). A `CUR` above 313 has nothing to read. -/
def drawMt (g : Generator) : Except Fault (Word × Generator) :=
  let r := mtReady g
  if h : r.cur.toNat < 312 then
    .ok (mtTemper r.S[r.cur.toNat], { r with cur := r.cur + 1 })
  else .error .cursorOutOfRange

end Sys2Proof.Machine
end

