-- ==== Sys2Proof/Machine/Pcg.lean ====
section
/-! DEFINITION. The permuted congruential generator, ALG 9 (spec/46_pcg.md): `LO = S[0]`, `HI = S[1]`. -/

namespace Sys2Proof.Machine

/-- `SEED s` with `ALG = 9` (R231): the first draw is LO, the second HI. -/
def seedPcg (s : Word) (g : Generator) : Generator :=
  { g with S := writeWords g.S 0 (expandScalar s 2) }

/-- The 128-bit state value `X = HI * 2^64 + LO` (spec/10_state.md R33). -/
def pcgValue (g : Generator) : DWord := g.S[1] ++ g.S[0]

/-- `X' = (X * PCG_MUL + PCG_INC) mod 2^128` (R232). -/
def pcgUpdate (P : Config.Params) (x : DWord) : DWord := x * P.pcgMul + P.pcgInc

/-- The low word of a 128-bit value. -/
def loWord (x : DWord) : Word := x.extractLsb' 0 64

/-- The high word of a 128-bit value. -/
def hiWord (x : DWord) : Word := x.extractLsb' 64 64

/-- The output `rotr64(HI ^ LO, HI >> 58)` (R232). -/
def pcgOutput (lo hi : Word) : Word := rotr64 (hi ^^^ lo) (hi >>> 58).toNat

/-- The draw of the permuted congruential generator (R232): the output is taken from the state after the update. -/
def drawPcg (P : Config.Params) (g : Generator) : Word × Generator :=
  let x := pcgUpdate P (pcgValue g)
  (pcgOutput (loWord x) (hiWord x), { g with S := (g.S.set 0 (loWord x)).set 1 (hiWord x) })

/-- `mulhi64(a, b)` (R234): the high word of the exact 128-bit product. -/
def mulHi64 (a b : Word) : Word := BitVec.ofNat 64 (a.toNat * b.toNat / 2 ^ 64)

/-- The update in 64-bit pieces (R234), from `(lo, hi)` to `(lo', hi')`; the block's rule is `pcgUpdate`, which R234
says is the same. -/
def pcgUpdatePieces (P : Config.Params) (lo hi : Word) : Word × Word :=
  let pl := lo * loWord P.pcgMul
  let ph := mulHi64 lo (loWord P.pcgMul)
  let h := ph + hi * loWord P.pcgMul + lo * hiWord P.pcgMul
  let lo' := pl + loWord P.pcgInc
  let c : Word := if lo'.toNat < pl.toNat then 1 else 0
  (lo', h + hiWord P.pcgInc + c)

end Sys2Proof.Machine
end

