-- ==== Sys2Proof/Machine/Draw.lean ====
section
/-! DEFINITION. The dispatch by `ALG` of seeding and drawing (spec/40_command_contract.md R112 to R114). -/

namespace Sys2Proof.Machine

/-- The instance after `SEED s` (R112). -/
def seedScalar (P : Config.Params) (s : Word) (g : Generator) : Generator :=
  match g.alg with
  | .sm64 => seedSm64 s g
  | .xs64s => seedXorshift P s g
  | .xs128p => seedXorshift P s g
  | .xs1024s => seedXorshift P s g
  | .xo128p => seedXoroshiro s g
  | .xo128ss => seedXoroshiro s g
  | .xo256p => seedXoroshiro s g
  | .xo256ss => seedXoroshiro s g
  | .mt64 => mtFill s g
  | .pcg => seedPcg s g

/-- The instance after `SEEDV words` (R113), for the algorithms that have slice seeding; the others have none (R153,
R187, R233). -/
def seedSlice (words : List Word) (g : Generator) : Option Generator :=
  match g.alg with
  | .sm64 => none
  | .xs64s => some (seedSliceXorshift words g)
  | .xs128p => some (seedSliceXorshift words g)
  | .xs1024s => some (seedSliceXorshift words g)
  | .xo128p => none
  | .xo128ss => none
  | .xo256p => none
  | .xo256ss => none
  | .mt64 => some (seedSliceMt words g)
  | .pcg => none

/-- `DRAW()` (R114): the value drawn and the instance after it. -/
def draw (P : Config.Params) (g : Generator) : Except Fault (Word × Generator) :=
  match g.alg with
  | .sm64 => .ok (drawSm64 g)
  | .xs64s => .ok (drawXs64s g)
  | .xs128p => .ok (drawXs128p P g)
  | .xs1024s => drawXs1024s g
  | .xo128p => .ok (drawXo128p g)
  | .xo128ss => .ok (drawXo128ss g)
  | .xo256p => .ok (drawXo256p g)
  | .xo256ss => .ok (drawXo256ss g)
  | .mt64 => drawMt g
  | .pcg => .ok (drawPcg P g)

end Sys2Proof.Machine
end

