-- ==== Sys2Proof/Machine/Contract.lean ====
section
/-! DEFINITION. The meanings of the commands of the numeric source contract, `SELECT`, `SEED`, `SEEDV` and `NEXT`
(spec/40_command_contract.md R111 to R114). -/

namespace Sys2Proof.Machine

/-- `SELECT alg` (R111): a fresh instance of the algorithm, the selected one included; a reserved number faults. -/
def execSelect (algf : BitVec 4) (s : State) : Host.Outcome State Fault Refusal :=
  match algOfNumber algf with
  | some a => .next ((s.withGen (freshGenerator a)).respond 0)
  | none => .next (s.raise .algReserved)

/-- `SEED s` (R112): it never faults. -/
def execSeed (seed : Word) (s : State) : Host.Outcome State Fault Refusal :=
  .next ((s.withGen (seedScalar hardware seed s.gen)).respond 0)

/-- `SEEDV [w0, ...]` (R113). -/
def execSeedv (words : List Word) (s : State) : Host.Outcome State Fault Refusal :=
  match seedSlice words s.gen with
  | some g => .next ((s.withGen g).respond 0)
  | none => .next (s.raise .seedvUnsupported)

/-- `NEXT` (R114). -/
def execNext (s : State) : Host.Outcome State Fault Refusal :=
  match draw hardware s.gen with
  | .ok (v, g) => .next ((s.withGen g).respond v)
  | .error f => .fault f

end Sys2Proof.Machine
end

