-- ==== Sys2Proof/Machine/Sampler.lean ====
section
/-! DEFINITION. The unbiased-range rejection sampler and its commands `UNIF64`, `UNIF32` and `UINTN`
(spec/47_sampler.md R240 to R245). -/

namespace Sys2Proof.Machine

/-- The width `W` of a bounded draw (R240). -/
inductive Width where
  | w32
  | w64
  deriving DecidableEq, Repr

/-- `W` as a number. -/
def widthBits : Width → Nat
  | .w32 => 32
  | .w64 => 64

/-- The raw value of width `W` of a drawn word (R240): all of it, or its upper half. -/
def rawValue : Width → Word → Word
  | .w32, v => hi32 v
  | .w64, v => v

/-- `THRESH_W(n) = (2^W - 1) - (2^W mod n)`, in exact integers (R241). -/
def threshold (W : Width) (n : Nat) : Nat :=
  (2 ^ widthBits W - 1) - 2 ^ widthBits W % n

/-- The test `(n & (n - 1)) = 0` of R242. -/
def isPowerOfTwo (n : Word) : Bool := n &&& (n - 1) = 0

/-- A raw value is accepted iff it does not exceed the threshold (R241). -/
def accepts (W : Width) (n raw : Word) : Bool := raw.toNat ≤ threshold W n.toNat

/-- The retry loop of R242, up to a number of passes: the value returned and the instance after the accepted draw, or
nothing if every pass rejected its raw value. -/
def retryLoop (P : Config.Params) (W : Width) (n : Word) :
    Nat → Generator → Except Fault (Option (Word × Generator))
  | 0, _ => .ok none
  | k + 1, g =>
    match draw P g with
    | .error f => .error f
    | .ok (v, g') =>
      if accepts W n (rawValue W v) then .ok (some (rawValue W v % n, g'))
      else retryLoop P W n k g'

/-- As many passes as an instance has states: 312 words of 64 bits and 9 bits of `CUR`, `ALG` being fixed. A loop that
has rejected that many raw values has met one of its states twice, so it rejects for ever. The number is a bound of
mathematics, not of the block: with it the model's loop ends exactly when the block's does (R247). DEDUCED, log
entry 3. -/
def passBound : Nat := (2 ^ 243) ^ 82 * 2 ^ 51

/-- `SAMPLE_W(n)` for `1 <= n <= 2^W - 1` (R242); nothing if the loop never ends. -/
def sample (P : Config.Params) (W : Width) (n : Word) (g : Generator) :
    Except Fault (Option (Word × Generator)) :=
  if isPowerOfTwo n then
    match draw P g with
    | .error f => .error f
    | .ok (v, g') => .ok (some (rawValue W v &&& (n - 1), g'))
  else retryLoop P W n passBound g

/-- A sampler command with a legal bound: the response of R243 to R245, or, if the loop never ends, no response and no
end of the command (R247). What `ALG`, `S` and `CUR` are inside a command that does not end nobody can see (R42), so
they are left as they were. DESIGN CHOICE, log entry 4. -/
def sampleCommand (W : Width) (n : Word) (s : State) : Host.Outcome State Fault Refusal :=
  match sample hardware W n s.gen with
  | .error f => .fault f
  | .ok (some (v, g)) => .next ((s.withGen g).respond v)
  | .ok none => .next { s with retrying := true }

/-- `UNIF64 n` (R243). -/
def execUnif64 (n : Word) (s : State) : Host.Outcome State Fault Refusal :=
  if n = 0 then .next (s.raise .badBound) else sampleCommand .w64 n s

/-- `UNIF32 n` (R244). -/
def execUnif32 (n : Word) (s : State) : Host.Outcome State Fault Refusal :=
  if n = 0 ∨ n.toNat > 0xFFFFFFFF then .next (s.raise .badBound) else sampleCommand .w32 n s

/-- `UINTN n` (R245): the 32-bit routine if `n` fits 32 bits, else the 64-bit one. -/
def execUintn (n : Word) (s : State) : Host.Outcome State Fault Refusal :=
  if n = 0 then .next (s.raise .badBound)
  else if n.toNat ≤ 0xFFFFFFFF then sampleCommand .w32 n s
  else sampleCommand .w64 n s

end Sys2Proof.Machine
end

