-- ==== Sys2Proof/Machine/Dispatch.lean ====
section
/-! DEFINITION. From each command to its meaning. -/

namespace Sys2Proof.Machine

def exec (i : Instr) (s : State) : Host.Outcome State Fault Refusal :=
  match i with
  | .select algf => Sys2Proof.Machine.execSelect algf s
  | .seed x => Sys2Proof.Machine.execSeed x s
  | .seedv words => Sys2Proof.Machine.execSeedv words s
  | .next => Sys2Proof.Machine.execNext s
  | .unif64 n => Sys2Proof.Machine.execUnif64 n s
  | .unif32 n => Sys2Proof.Machine.execUnif32 n s
  | .uintn n => Sys2Proof.Machine.execUintn n s

end Sys2Proof.Machine
end

