-- ==== Sys2Proof/Machine/Fetch.lean ====
section
/-! DEFINITION. Taking a command from the command port (spec/40_command_contract.md R110 step 1), and the reset that
abandons one (spec/70_reset_and_hazards.md R301). -/

namespace Sys2Proof.Machine

/-- The words the block can see: those of the command being assembled, and those the host has sent since, up to the
first reset. -/
def visibleWords (s : State) : List Word := s.asm ++ portWords s.port

/-- The state once a whole command has been taken and `rest` are the words after it (R80, R83). -/
def consumeCommand (s : State) (rest : List Word) : State :=
  { s with asm := [], port := rest.map .word ++ countFinished (portTail s.port) }

/-- A reset arrives before another command is finished. Whether the block is then assembling a command, executing one
whose last word it has, or about to take one makes no difference: that command is abandoned (R301). -/
def resetArrives (s : State) : Bool :=
  match portTail s.port with
  | .reset 0 :: _ => true
  | _ => false

/-- A reset at the inputs takes effect: every word sent before it is discarded, the command in progress gives no response
and has no effect, and what the host does afterwards lies ahead (R301). With no reset at the inputs nothing changes. -/
def takeReset (s : State) : State :=
  match portTail s.port with
  | [] => s
  | _ :: ahead => afterReset ahead

/-- No whole command is there: a reset takes effect (R301); without one the block holds the words received so far and
waits, and nothing else changes (R110 step 1). -/
def awaitWords (s : State) : State :=
  match portTail s.port with
  | [] => { s with asm := visibleWords s, port := [] }
  | _ :: _ => takeReset s

/-- The status of an illegal header (spec/30_encoding.md R88). -/
def illegalStatus : IllegalHeader → Status
  | .illegalOpcode => .illegalOpcode
  | .illegalField => .illegalField

/-- The state with the words of one instruction as the next words on the command port, nothing being assembled or
executed; whatever else the host does comes after them. -/
def loadWords (s : State) (ws : List Word) : State :=
  { s with asm := [], retrying := false, port := ws.map .word ++ allowOneMore s.port }

end Sys2Proof.Machine
end

