-- ==== Sys2Proof/Machine/Step.lean ====
section
/-! DEFINITION. One step: one whole command, or waiting for words, or a reset (spec/40_command_contract.md R110). -/

namespace Sys2Proof.Machine

/-- One step of the command cycle (R110): take a whole command, check it (R88), execute it, respond; unless a reset
arrives before that is done (R301), or the block is inside a command that never ends, takes no word, and only reset ends
it (R247). -/
def step (s : State) : Host.Outcome State Fault Refusal :=
  if resetArrives s || s.retrying then .next (takeReset s)
  else
    match decode (visibleWords s) with
    | .ok (i, rest) => exec i (consumeCommand s rest)
    | .error (.illegal why rest) => .next ((consumeCommand s rest).raise (illegalStatus why))
    | .error .incomplete => .next (awaitWords s)

/-- The state whose next command is the one of the bits `w` (`nbits` of them given, the rest zero): the words stand on
the command port as if the host had sent them. -/
def State.withFetchWord (s : State) (nbits w : Nat) : State :=
  loadWords s (tableWords nbits w)

end Sys2Proof.Machine
end

