-- ==== Sys2Proof/Machine/HostSide.lean ====
section
/-! DEFINITION. What a host computes from the block's commands (spec/47_sampler.md R252 to R257, spec/60_exceptions.md
R281), and the words of a port carried as bytes (spec/20_memory.md R61). None of it is in the block
(spec/00_scope.md R4 c): no meaning of a command uses this file. -/

namespace Sys2Proof.Machine

/-! ## Floating-point values in [0, 1) -/

/-- The command whose result gives a Float64 (R252): `UNIF64` with the bound `2^53`. -/
def float64Command : Instr := .unif64 0x0020000000000000

/-- The Float64 of a result `k` (R252): `k / 2^53`, an exact number. -/
def float64Value (k : Word) : Rat := (k.toNat : Rat) / 2 ^ 53

/-- The command whose result gives a Float32 (R253): `UINTN` with the bound `2^24`. -/
def float32Command : Instr := .uintn 0x1000000

/-- The Float32 of a result `k` (R253): `k / 2^24`, an exact number. -/
def float32Value (k : Word) : Rat := (k.toNat : Rat) / 2 ^ 24

/-! ## Uniform permutation -/

/-- The commands of `UPerm(n)` (R254): `UINTN (i + 1)` for `i` from 0 to `n - 1`. -/
def upermCommands (n : Nat) : List Instr :=
  (List.range n).map fun i => .uintn (BitVec.ofNat 64 (i + 1))

/-- Step `i` of the inside-out shuffle (R254), `i` being the length of the list: `P[i] <- P[j]`, then `P[j] <- i`. When
`j = i` the cell copied is not set yet, and what is copied is overwritten. -/
def insideOut (p : List Nat) (j : Nat) : List Nat :=
  (p ++ [p.getD j 0]).set j p.length

/-- The permutation the results `j` of the commands give (R254). -/
def uperm (js : List Nat) : List Nat := js.foldl insideOut []

/-! ## Bulk words and bytes, Int63 -/

/-- The commands that fill a buffer of `m` words (R255); result `k` is word `k`. -/
def bulkWordsCommands (m : Nat) : List Instr := List.replicate m .next

/-- The commands that fill a buffer of `b` bytes (R256): `ceil(b / 8)` draws. -/
def bulkBytesCommands (b : Nat) : List Instr := List.replicate ((b + 7) / 8) .next

/-- The bytes of a word, the least significant first. -/
def bytesLittle (w : Word) : List Byte :=
  (List.range 8).map fun t => w.extractLsb' (8 * t) 8

/-- The buffer of `b` bytes the results give (R256): least significant byte first, the bytes of the last draw beyond
`b` discarded. -/
def bulkBytes (b : Nat) (results : List Word) : List Byte :=
  (results.flatMap bytesLittle).take b

/-- `Int63` of a result of `NEXT` (R257): `v >> 1`, read as a signed 64-bit integer. -/
def int63 (v : Word) : Int := (v >>> 1).toInt

/-! ## Several blocks -/

/-- The seed of block `k` of `count` independent blocks (R281): the `k`-th value of `EXPAND_SCALAR(s, count)`. -/
def blockSeed (s : Word) (count k : Nat) : Option Word := (expandScalar s count)[k]?

/-! ## A port carried as bytes -/

/-- The eight bytes of a port word in an order (spec/00_scope.md R12). -/
def bytesInOrder : Config.ByteOrder → Word → List Byte
  | .little, w => bytesLittle w
  | .big, w => (bytesLittle w).reverse

/-- The word of bytes given the least significant first. -/
def wordOfLittle : List Byte → Word
  | [] => 0
  | b :: bs => (wordOfLittle bs <<< 8) ||| b.zeroExtend 64

/-- The word of bytes that came in an order. -/
def wordInOrder : Config.ByteOrder → List Byte → Word
  | .little, bs => wordOfLittle bs
  | .big, bs => wordOfLittle bs.reverse

/-- A port word over a narrower transport, in the order `PORT_BYTE_ORDER` leaves open (R12, R61). -/
def portBytes (w : Word) : List Byte := bytesInOrder Config.portByteOrder w

end Sys2Proof.Machine
end

