-- ==== Sys2Proof/Safety.lean ====
section
/-! DEFINITION. The terms in which claims speak: the invariants of spec/10_state.md R45 and spec/45_mt19937_64.md R207,
what a safe step is, and the sequence of raw draws from a state. -/

namespace Sys2Proof.Machine

/-- Words outside the selected algorithm's prefix are zero (R34, R45 b). -/
def tailZero (g : Generator) : Prop := ∀ (i : Nat) (h : i < 312), stateWords g.alg ≤ i → g.S[i] = 0

/-- Where `CUR` can stand (R45 c, d, e; R207 adds that MT64 never shows 0; R111 that an unseeded MT64 has all words
zero). R45 a, `ALG <= 9`, holds by the type of `ALG`. -/
def cursorLegal (g : Generator) : Prop :=
  match g.alg with
  | .xs1024s => g.cur.toNat ≤ 15
  | .mt64 => 1 ≤ g.cur.toNat ∧ g.cur.toNat ≤ 313 ∧ (g.cur = mtUnseeded → ∀ (i : Nat) (h : i < 312), g.S[i] = 0)
  | .sm64 | .xs64s | .xs128p | .xo128p | .xo128ss | .xo256p | .xo256ss | .pcg => g.cur = 0

/-- The invariant of an instance (R45, R207). -/
def Generator.inv (g : Generator) : Prop := tailZero g ∧ cursorLegal g

/-- The invariant of the machine: the instance's, and what is being assembled is not yet a whole command (R42, R110). -/
def State.inv (s : State) : Prop := s.gen.inv ∧ decode s.asm = .error .incomplete

/-- What a command that took effect does beside the instance (R90): it adds one response `(OK, v)`; the ports and the
assembly buffer are as they were. -/
def respondedOk (s t : State) (v : Word) : Prop :=
  t.asm = s.asm ∧ t.retrying = s.retrying ∧ t.port = s.port ∧ t.out = s.out ++ [{ st := .ok, data := v }]

/-- The outcome of a list of commands, each executed after the one before it (R67). -/
def execAll : List Instr → State → Host.Outcome State Fault Refusal
  | [], s => .next s
  | i :: is, s =>
    match exec i s with
    | .next t => execAll is t
    | .fault f => .fault f
    | .refused r => .refused r

/-- A block that waits for a header, with nothing sent and no command in progress. -/
def idle (s : State) : Prop := s.asm = [] ∧ s.port = [] ∧ s.retrying = false

/-- A step that goes on: no fault, no refusal. -/
def stepsOn (s : State) : Prop := ∃ t, step s = .next t

/-- The `k`-th raw draw from an instance, counted from 0: the value and the instance after it. -/
def drawNth (P : Config.Params) : Nat → Generator → Except Fault (Word × Generator)
  | 0, g => draw P g
  | k + 1, g =>
    match draw P g with
    | .ok (_, g') => drawNth P k g'
    | .error f => .error f

/-- The instance after `k` raw draws. -/
def afterDraws (P : Config.Params) : Nat → Generator → Except Fault Generator
  | 0, g => .ok g
  | k + 1, g =>
    match draw P g with
    | .ok (_, g') => afterDraws P k g'
    | .error f => .error f

/-- The raw value of a drawn word is accepted (R240, R241), in exact integers: it is at most
`(2^W - 1) - (2^W mod n)`. -/
def acceptedRaw : Width → Word → Word → Prop
  | .w32, n, v => v.toNat / 2 ^ 32 ≤ (2 ^ 32 - 1) - 2 ^ 32 % n.toNat
  | .w64, n, v => v.toNat ≤ (2 ^ 64 - 1) - 2 ^ 64 % n.toNat

/-- The `k`-th raw draw is the first one that is accepted (R242), with value `v` and the instance `g'` after it. -/
def firstAccepted (P : Config.Params) (W : Width) (n : Word) (g : Generator) (k : Nat) (v : Word) (g' : Generator) :
    Prop :=
  drawNth P k g = .ok (v, g') ∧ acceptedRaw W n v ∧
  ∀ j < k, ∃ u h, drawNth P j g = .ok (u, h) ∧ ¬ acceptedRaw W n u

/-- One mixing step of R203 with its counters given: word `i` (1 to 311) from the words `i` and `i - 1`, and, after word
311, word 0 as a copy of it. -/
def mixedAt (S T : Words) (i : Nat) (v : Word) : Prop :=
  ∀ (k : Nat) (h : k < 312), T[k] = if k = i ∨ (i = 311 ∧ k = 0) then v else S[k]

/-- The feedback of the twist (R200, R204) from the upper bits of one word and the lower bits of the next. -/
def twistFeedback (u l : Word) : Word :=
  (((u &&& 0xFFFFFFFF80000000) ||| (l &&& 0x7FFFFFFF)) >>> 1) ^^^ (if l.getLsbD 0 then 0xB5026F5AA96619E9 else 0)

/-- The twist as a recurrence from the old words `S` to the new words `T` (R204). -/
def twistRecurrence (S T : Words) : Prop :=
  (∀ (i : Fin 156), T[i.val] = S[156 + i.val] ^^^ twistFeedback S[i.val] S[i.val + 1]) ∧
  (∀ (i : Fin 155), T[156 + i.val] = T[i.val] ^^^ twistFeedback S[156 + i.val] S[157 + i.val]) ∧
  T[311] = T[155] ^^^ twistFeedback S[311] T[0]

/-- Every word the selected algorithm uses is zero: the all-zero state of spec/43_xorshift.md R167 and
spec/44_xoroshiro_xoshiro.md R188. -/
def allZero (g : Generator) : Prop := ∀ (i : Nat) (h : i < 312), i < stateWords g.alg → g.S[i] = 0

end Sys2Proof.Machine
end

