-- ==== Sys2Proof/Certificates/Slice0/Obligations.lean ====
section
/-! DEFINITION. The statements for the provers. Each docstring names the rules it formalises. -/

open Sys2Proof Sys2Proof.Machine

/-! ## Encoding -/

/-- R82, R84: a well-formed command, sent as its words, is read back as it is, whatever follows it. -/
def Obligations.DecodeOfEncode : Prop :=
  ∀ (i : Instr) (rest : List Word), i.wellFormed = true → decode (encode i ++ rest) = .ok (i, rest)

/-- R81, R84, R88: a command is read only from its own words, so every bit of a header counts. -/
def Obligations.EncodeOfDecode : Prop :=
  ∀ (ws : List Word) (i : Instr) (rest : List Word),
    decode ws = .ok (i, rest) → i.wellFormed = true ∧ ws = encode i ++ rest

/-- R88: every header with its payload falls in exactly one class, tested in the order opcode, fields; class (c) is read
as a `SELECT`. -/
def Obligations.EveryHeaderHasOneClass : Prop :=
  ∀ (h : Word) (p rest : List Word), p.length = payloadCount h →
    decode (h :: (p ++ rest)) =
      if opcOf h = 0 ∨ 8 ≤ (opcOf h).toNat then .error (.illegal .illegalOpcode rest)
      else if rsvOf h ≠ 0 ∨ (algfOf h ≠ 0 ∧ opcOf h ≠ 1) ∨ (lenOf h ≠ 0 ∧ opcOf h ≠ 3) then
        .error (.illegal .illegalField rest)
      else if opcOf h = 1 then .ok (.select (algfOf h), rest)
      else if opcOf h = 3 then .ok (.seedv p, rest)
      else if opcOf h = 4 then .ok (.next, rest)
      else if opcOf h = 2 then .ok (.seed (p.headD 0), rest)
      else if opcOf h = 5 then .ok (.unif64 (p.headD 0), rest)
      else if opcOf h = 6 then .ok (.unif32 (p.headD 0), rest)
      else .ok (.uintn (p.headD 0), rest)

/-- R83: how many payload words follow a header. -/
def Obligations.PayloadCountByOpcode : Prop :=
  ∀ h : Word, payloadCount h =
    if h.extractLsb' 56 8 = 2 ∨ h.extractLsb' 56 8 = 5 ∨ h.extractLsb' 56 8 = 6 ∨ h.extractLsb' 56 8 = 7 then 1
    else if h.extractLsb' 56 8 = 3 then (h.extractLsb' 0 16).toNat
    else 0

/-- R94: worked examples of words and what they are read as. -/
def Obligations.WorkedWordsDecode : Prop :=
  decode [0x0180000000000000] = .ok (.select 8, []) ∧
  decode [0x0100000000000000] = .ok (.select 0, []) ∧
  decode [0x0190000000000000] = .ok (.select 9, []) ∧
  decode [0x0200000000000000, 0x00000143057C850E] = .ok (.seed 1387366483214, []) ∧
  decode [0x0300000000000004, 0x12345, 0x23456, 0x34567, 0x45678] =
    .ok (.seedv [0x12345, 0x23456, 0x34567, 0x45678], []) ∧
  decode [0x0300000000000000] = .ok (.seedv [], []) ∧
  decode [0x0400000000000000] = .ok (.next, []) ∧
  decode [0x0500000000000000, 0xA] = .ok (.unif64 10, []) ∧
  decode [0x0600000000000000, 0x6] = .ok (.unif32 6, []) ∧
  decode [0x0700000000000000, 0x0000000100000000] = .ok (.uintn 0x100000000, []) ∧
  decode [0x0000000000000000] = .error (.illegal .illegalOpcode []) ∧
  decode [0x0400000000000001] = .error (.illegal .illegalField []) ∧
  decode [0x0210000000000000, 0x7] = .error (.illegal .illegalField []) ∧
  decode [0x01A0000000000000] = .ok (.select 10, [])

/-! ## The command cycle -/

/-- R110: a step runs the command the words decode to, on the state with its words taken off the port, unless a reset
arrives first (R301). The port as a list of events is the model's (log entry 2), and so are the step as one whole command
(log entry 8) and the count of finished commands after which a reset arrives (log entry 11). -/
def Obligations.StepRunsTheDecodedCommand : Prop :=
  ∀ (s : Machine.State) (i : Instr) (rest : List Word),
    s.retrying = false → (∀ ahead, portTail s.port ≠ .reset 0 :: ahead) →
    decode (s.asm ++ portWords s.port) = .ok (i, rest) →
      step s = exec i { s with asm := [], port := rest.map .word ++ countFinished (portTail s.port) }

/-- R271 to R273, R83: an illegal header is answered with its status, opcode before fields; its payload is taken off
the port, and nothing else changes, unless a reset arrives first (R301). The port as a list of events is the model's (log
entry 2), and so is the count after which a reset arrives (log entry 11). -/
def Obligations.IllegalHeaderIsAnswered : Prop :=
  ∀ (s : Machine.State) (h : Word) (p rest : List Word),
    s.retrying = false → (∀ ahead, portTail s.port ≠ .reset 0 :: ahead) →
    s.asm ++ portWords s.port = h :: (p ++ rest) → p.length = payloadCount h →
      ((opcOf h = 0 ∨ 8 ≤ (opcOf h).toNat) →
        step s = .next { s with
          asm := [], port := rest.map .word ++ countFinished (portTail s.port), out := s.out ++ [⟨.illegalOpcode, 0⟩] }) ∧
      ((1 ≤ (opcOf h).toNat ∧ (opcOf h).toNat ≤ 7 ∧
          (rsvOf h ≠ 0 ∨ (algfOf h ≠ 0 ∧ opcOf h ≠ 1) ∨ (lenOf h ≠ 0 ∧ opcOf h ≠ 3))) →
        step s = .next { s with
          asm := [], port := rest.map .word ++ countFinished (portTail s.port), out := s.out ++ [⟨.illegalField, 0⟩] })

/-- R110 step 1: with no whole command and no reset ahead the block holds the words sent and changes nothing else. That
such a step moves the words from the port to the buffer is the model's choice (log entry 10). -/
def Obligations.WaitsForTheWholeCommand : Prop :=
  ∀ s : Machine.State, s.retrying = false → decode (s.asm ++ portWords s.port) = .error .incomplete →
    portTail s.port = [] → step s = .next { s with asm := s.asm ++ portWords s.port, port := [] }

/-- R300, R301: a reset that arrives before another command is finished (`k = 0`), or while the block waits for words or
is inside a command that never ends, abandons the command: every piece of state has its reset value, no response is left,
the words sent before the reset are gone, and what the host does after it lies ahead. With `k = 0` this holds whatever the
words hold, a whole command among them. Where a reset can stand is the model's choice (log entries 2, 4 and 11). -/
def Obligations.ResetAbandonsTheCommand : Prop :=
  ∀ (s : Machine.State) (k : Nat) (ahead : List PortEvent), portTail s.port = .reset k :: ahead →
    (k = 0 ∨ s.retrying = true ∨ decode (s.asm ++ portWords s.port) = .error .incomplete) →
      ∃ t, step s = .next t ∧ t.gen.alg = .sm64 ∧ (∀ (i : Nat) (h : i < 312), t.gen.S[i] = 0) ∧ t.gen.cur = 0 ∧
        t.asm = [] ∧ t.retrying = false ∧ t.out = [] ∧ t.port = ahead

/-- R301: a reset that arrives once the commands `is` are finished: they take effect and respond, in their order, and
whatever words follow them, part of a command, a whole one that is executing, or several, are discarded with no effect and
no response. That the host's reset carries the number of commands finished before it is the model's choice (log entry
11). -/
def Obligations.ResetOvertakesTheWordsSent : Prop :=
  ∀ (is : List Instr) (ws : List Word) (s t : Machine.State) (ahead : List PortEvent),
    idle s → (∀ i ∈ is, i.wellFormed = true) → execAll is s = .next t → t.retrying = false →
      Host.Core.run core is.length
          { s with port := (is.flatMap encode ++ ws).map .word ++ .reset is.length :: ahead } =
        .next { t with port := ws.map .word ++ .reset 0 :: ahead } ∧
      Host.Core.run core (is.length + 1)
          { s with port := (is.flatMap encode ++ ws).map .word ++ .reset is.length :: ahead } =
        .next { State.reset with port := ahead }

/-- R44, R300: the state after reset, which is the state after `SELECT SM64`. -/
def Obligations.ResetLeavesAFreshInstance : Prop :=
  State.reset.gen.alg = .sm64 ∧ (∀ (i : Nat) (h : i < 312), State.reset.gen.S[i] = 0) ∧ State.reset.gen.cur = 0 ∧
  State.reset.asm = [] ∧ State.reset.out = [] ∧
  ∀ s : Machine.State, ∃ t, exec (.select 0) s = .next t ∧ t.gen = State.reset.gen

/-- R306: words the host sends early, while a step still has a whole command, an illegal header or a reset to deal
with, change nothing about that step and lie ahead after it. So it is inside a command that never ends, where the block
takes no word: that this is a state that stays is the model's choice (log entry 4), as are the port as a list of events
(log entry 2) and where a reset stands in it (log entry 11). -/
def Obligations.EarlyWordsChangeNothing : Prop :=
  ∀ (s t : Machine.State) (ws : List Word),
    (s.retrying = true ∨ decode (s.asm ++ portWords s.port) ≠ .error .incomplete ∨ portTail s.port ≠ []) →
      step s = .next t → step (s.send ws) = .next (t.send ws)

/-- R110, R5: one whole command sent to an idle block is one step, and the step is the command's meaning. One step for
one command is the model's choice (log entry 8). -/
def Obligations.OneCommandIsOneStep : Prop :=
  ∀ (s : Machine.State) (i : Instr), idle s → i.wellFormed = true → step (s.sendCommand i) = exec i s

/-- R67: a stream of commands takes effect in the order the commands are sent, each complete before the next starts. One
step for one command is the model's choice (log entry 8). -/
def Obligations.CommandStreamRunsInOrder : Prop :=
  ∀ (is : List Instr) (s t : Machine.State),
    idle s → (∀ i ∈ is, i.wellFormed = true) → execAll is s = .next t → t.retrying = false →
      Host.Core.run core is.length (s.send (is.flatMap encode)) = .next t

/-! ## SELECT, SEED, SEEDV -/

/-- R32: how many words of `S` each algorithm uses. -/
def Obligations.WordsEachAlgorithmUses : Prop :=
  stateWords .sm64 = 1 ∧ stateWords .xs64s = 1 ∧ stateWords .xs128p = 2 ∧ stateWords .xs1024s = 16 ∧
  stateWords .xo128p = 2 ∧ stateWords .xo128ss = 2 ∧ stateWords .xo256p = 4 ∧ stateWords .xo256ss = 4 ∧
  stateWords .mt64 = 312 ∧ stateWords .pcg = 2

/-- R111: `SELECT` makes a fresh instance of the algorithm with its number; the numbers 10 to 15 fault and the instance
survives. -/
def Obligations.SelectMakesAFreshInstance : Prop :=
  (∀ (s : Machine.State) (a : Alg), exec (.select (algNumber a)) s =
    .next { s with
      gen := { alg := a, S := Vector.replicate 312 0, cur := if algNumber a = 8 then 313 else 0 },
      out := s.out ++ [⟨.ok, 0⟩] }) ∧
  (∀ (s : Machine.State) (algf : BitVec 4), 10 ≤ algf.toNat →
    exec (.select algf) s = .next { s with out := s.out ++ [⟨.algReserved, 0⟩] }) ∧
  (∀ algf : BitVec 4, algf.toNat < 10 → ∃ a, algNumber a = algf)

/-- R151: `SEED s` with SM64 stores the seed as it stands. -/
def Obligations.SeedSplitMixStoresTheSeed : Prop :=
  ∀ (s : Machine.State) (w : Word), s.gen.alg = .sm64 →
    exec (.seed w) s =
      .next { s with gen := { s.gen with S := s.gen.S.set 0 w }, out := s.out ++ [⟨.ok, 0⟩] }

/-- R161, R140, R150: `SEED s` with an xorshift algorithm fills the prefix with the outputs of a splitmix64 seeded with
`s`, or with `SEED_DEFAULT` if `s` is 0, and sets `CUR` to 0; `N` is the prefix of R32. The value of `SEED_DEFAULT` is
that of R8, a parameter (log entry 7). -/
def Obligations.SeedXorshiftExpandsTheSeed : Prop :=
  ∀ (s : Machine.State) (w : Word) (N : Nat),
    (s.gen.alg = .xs64s ∧ N = 1 ∨ s.gen.alg = .xs128p ∧ N = 2 ∨ s.gen.alg = .xs1024s ∧ N = 16) →
    ∃ t, exec (.seed w) s = .next t ∧ respondedOk s t 0 ∧ t.gen.alg = s.gen.alg ∧ t.gen.cur = 0 ∧
      ∀ (i : Nat) (h : i < 312), t.gen.S[i] =
        if i < N then
          smMix ((if w = 0 then 0x9E3779B97F4A7C15 else w) + BitVec.ofNat 64 (i + 1) * 0x9E3779B97F4A7C15)
        else s.gen.S[i]

/-- R180, R231, R140: `SEED s` with ALG 4 to 7 or 9 fills the prefix with the outputs of a splitmix64 seeded with `s`,
0 included; `CUR` stays; `N` is the prefix of R32. -/
def Obligations.SeedExpandsWithoutDefault : Prop :=
  ∀ (s : Machine.State) (w : Word) (N : Nat),
    ((s.gen.alg = .xo128p ∨ s.gen.alg = .xo128ss ∨ s.gen.alg = .pcg) ∧ N = 2 ∨
      (s.gen.alg = .xo256p ∨ s.gen.alg = .xo256ss) ∧ N = 4) →
    ∃ t, exec (.seed w) s = .next t ∧ respondedOk s t 0 ∧ t.gen.alg = s.gen.alg ∧ t.gen.cur = s.gen.cur ∧
      ∀ (i : Nat) (h : i < 312), t.gen.S[i] =
        if i < N then smMix (w + BitVec.ofNat 64 (i + 1) * 0x9E3779B97F4A7C15) else s.gen.S[i]

/-- R202: `SEED s` with MT64 is the linear congruential fill, each word from the word just written; 0 stands for 5489;
`CUR` becomes 312. -/
def Obligations.SeedMersenneFillsTheArray : Prop :=
  ∀ (s : Machine.State) (w : Word), s.gen.alg = .mt64 →
    ∃ t, exec (.seed w) s = .next t ∧ respondedOk s t 0 ∧ t.gen.alg = .mt64 ∧ t.gen.cur = 312 ∧
      t.gen.S[0] = (if w = 0 then 5489 else w) ∧
      ∀ (i : Nat) (_ : 1 ≤ i) (h : i < 312), t.gen.S[i] =
        6364136223846793005 * (t.gen.S[i - 1] ^^^ (t.gen.S[i - 1] >>> 62)) + BitVec.ofNat 64 i

/-- R162, R141: `SEEDV` with an xorshift algorithm copies the slice's leading words, fills what is left from a splitmix64
seeded with the last word copied, or with 0, and sets `CUR` to 0; `N` is the prefix of R32. -/
def Obligations.SeedvXorshiftCopiesTheSlice : Prop :=
  ∀ (s : Machine.State) (ws : List Word) (N : Nat),
    (s.gen.alg = .xs64s ∧ N = 1 ∨ s.gen.alg = .xs128p ∧ N = 2 ∨ s.gen.alg = .xs1024s ∧ N = 16) →
    ∃ t, exec (.seedv ws) s = .next t ∧ respondedOk s t 0 ∧ t.gen.alg = s.gen.alg ∧ t.gen.cur = 0 ∧
      ∀ (i : Nat) (h : i < 312), t.gen.S[i] =
        if i < N then
          (if hw : i < ws.length then ws[i]
           else smMix (ws.getLastD 0 + BitVec.ofNat 64 (i - ws.length + 1) * 0x9E3779B97F4A7C15))
        else s.gen.S[i]

/-- R203: `SEEDV` with MT64 is the fill from 19650218 and the two mixing passes. The counters are given in closed form:
step `m` of the passes taken together mixes word `1 + m mod 311`, and step `m` of the first pass adds key word
`m mod KL` and its index. -/
def Obligations.SeedvMersenneMixesTheKey : Prop :=
  ∀ (s : Machine.State) (ws key : List Word) (n : Nat), s.gen.alg = .mt64 →
    key = (if ws = [] then [0] else ws) → n = max 312 key.length →
    ∃ (t : Machine.State) (T : Nat → Words), exec (.seedv ws) s = .next t ∧ respondedOk s t 0 ∧ t.gen.alg = .mt64 ∧ t.gen.cur = 312 ∧
      T 0 = mtFillWords 19650218 s.gen.S ∧
      (∀ (m i j : Nat) (hi : 1 ≤ i ∧ i < 312), m < n → i = 1 + m % 311 → j = m % key.length →
        mixedAt (T m) (T (m + 1)) i
          (((T m)[i] ^^^ (((T m)[i - 1] ^^^ ((T m)[i - 1] >>> 62)) * 3935559000370003845)) +
            key.getD j 0 + BitVec.ofNat 64 j)) ∧
      (∀ (m i : Nat) (hi : 1 ≤ i ∧ i < 312), n ≤ m → m < n + 311 → i = 1 + m % 311 →
        mixedAt (T m) (T (m + 1)) i
          (((T m)[i] ^^^ (((T m)[i - 1] ^^^ ((T m)[i - 1] >>> 62)) * 2862933555777941757)) - BitVec.ofNat 64 i)) ∧
      ∀ (i : Nat) (h : i < 312), t.gen.S[i] = if i = 0 then 0x8000000000000000 else (T (n + 311))[i]

/-- R113, R153, R187, R233: `SEEDV` with an algorithm that has no slice seeding faults and changes nothing else. -/
def Obligations.SeedvUnsupportedFaults : Prop :=
  ∀ (s : Machine.State) (ws : List Word),
    (s.gen.alg = .sm64 ∨ s.gen.alg = .xo128p ∨ s.gen.alg = .xo128ss ∨ s.gen.alg = .xo256p ∨ s.gen.alg = .xo256ss ∨
      s.gen.alg = .pcg) →
    exec (.seedv ws) s = .next { s with out := s.out ++ [⟨.seedvUnsupported, 0⟩] }

/-- R112: the instance after `SEED` or a successful `SEEDV` depends on `ALG` and the operand only, in every state the
block can be in. -/
def Obligations.SeedingForgetsTheOldState : Prop :=
  ∀ (s s' t t' : Machine.State) (i : Instr), s.inv → s'.inv → s.gen.alg = s'.gen.alg →
    ((∃ w, i = .seed w) ∨ ∃ ws, i = .seedv ws ∧ (s.gen.alg = .xs64s ∨ s.gen.alg = .xs128p ∨ s.gen.alg = .xs1024s ∨
      s.gen.alg = .mt64)) →
    exec i s = .next t → exec i s' = .next t' → t.gen = t'.gen

/-! ## NEXT -/

/-- R152, R150: the draw of splitmix64. -/
def Obligations.NextSplitMix : Prop :=
  ∀ s : Machine.State, s.gen.alg = .sm64 →
    ∀ z a b c : Word, z = s.gen.S[0] + 0x9E3779B97F4A7C15 →
      a = (z ^^^ (z >>> 30)) * 0xBF58476D1CE4E5B9 → b = (a ^^^ (a >>> 27)) * 0x94D049BB133111EB →
      c = b ^^^ (b >>> 31) →
      exec .next s = .next { s with gen := { s.gen with S := s.gen.S.set 0 z }, out := s.out ++ [⟨.ok, c⟩] }

/-- R163: the draw of xorshift64*. -/
def Obligations.NextXorshift64 : Prop :=
  ∀ s : Machine.State, s.gen.alg = .xs64s →
    ∀ a b c : Word, a = s.gen.S[0] ^^^ (s.gen.S[0] >>> 12) → b = a ^^^ (a <<< 25) → c = b ^^^ (b >>> 27) →
      exec .next s =
        .next { s with gen := { s.gen with S := s.gen.S.set 0 c }, out := s.out ++ [⟨.ok, c * 0x2545F4914F6CDD1D⟩] }

/-- R164: the draw of xorshift128+ with the shift pair of this hardware, (17, 26), and the draw with the other legal
pair, (18, 5). The pair is a parameter (R9); that the machine has the first is log entry 7. -/
def Obligations.NextXorshift128 : Prop :=
  (∀ s : Machine.State, s.gen.alg = .xs128p →
    ∀ s0 s1 t : Word, s0 = s.gen.S[0] → s1 = s.gen.S[1] → t = s1 ^^^ (s1 <<< 23) →
      exec .next s =
        .next { s with
          gen := { s.gen with S := (s.gen.S.set 0 s1).set 1 (t ^^^ s0 ^^^ (t >>> 17) ^^^ (s0 >>> 26)) },
          out := s.out ++ [⟨.ok, s0 + s1⟩] }) ∧
  (∀ (P : Config.Params) (g : Generator), P.xs128pShiftA = 18 → P.xs128pShiftB = 5 → g.alg = .xs128p →
    ∀ s0 s1 t : Word, s0 = g.S[0] → s1 = g.S[1] → t = s1 ^^^ (s1 <<< 23) →
      draw P g =
        .ok (s0 + s1, { g with S := (g.S.set 0 s1).set 1 (t ^^^ s0 ^^^ (t >>> 18) ^^^ (s0 >>> 5)) }))

/-- R165: the draw of xorshift1024*; the word at the advanced cursor changes, and the cursor wraps from 15 to 0. -/
def Obligations.NextXorshift1024 : Prop :=
  ∀ (s : Machine.State) (p q : Nat), s.gen.alg = .xs1024s → (hp : s.gen.cur.toNat = p) → (h : p < 16) →
    (hq : q = if p = 15 then 0 else p + 1) →
    ∀ a b x : Word, a = s.gen.S[q]'(by subst hq; split <;> omega) ^^^ (s.gen.S[q]'(by subst hq; split <;> omega) <<< 31) →
      b = a ^^^ (a >>> 11) → x = s.gen.S[p] ^^^ (s.gen.S[p] >>> 30) ^^^ b →
      exec .next s =
        .next { s with
          gen := { s.gen with S := s.gen.S.set q x (by subst hq; split <;> omega), cur := BitVec.ofNat 9 q },
          out := s.out ++ [⟨.ok, x * 0x106689D45497FDB5⟩] }

/-- R181, R183, R184: the draws of xoroshiro128+ and xoroshiro128**: one update, two outputs, both from the words before
the update. -/
def Obligations.NextXoroshiro128 : Prop :=
  ∀ (s : Machine.State) (s0 s1 x : Word), s0 = s.gen.S[0] → s1 = s.gen.S[1] → x = s1 ^^^ s0 →
    (s.gen.alg = .xo128p ∨ s.gen.alg = .xo128ss) →
      exec .next s =
        .next { s with
          gen := { s.gen with
            S := (s.gen.S.set 0 (s0.rotateLeft 24 ^^^ x ^^^ (x <<< 16))).set 1 (x.rotateLeft 37) },
          out := s.out ++ [⟨.ok, if s.gen.alg = .xo128p then s0 + s1 else (s1 * 5).rotateLeft 7 * 9⟩] }

/-- R182 in closed form, R185, R186: the draws of xoshiro256+ and xoshiro256**. -/
def Obligations.NextXoshiro256 : Prop :=
  ∀ (s : Machine.State) (a b c d : Word), a = s.gen.S[0] → b = s.gen.S[1] → c = s.gen.S[2] → d = s.gen.S[3] →
    (s.gen.alg = .xo256p ∨ s.gen.alg = .xo256ss) →
      exec .next s =
        .next { s with
          gen := { s.gen with
            S := (((s.gen.S.set 0 (a ^^^ d ^^^ b)).set 1 (b ^^^ c ^^^ a)).set 2 (c ^^^ a ^^^ (b <<< 17))).set 3
              ((d ^^^ b).rotateLeft 45) },
          out := s.out ++ [⟨.ok, if s.gen.alg = .xo256p then a + d else (b * 5).rotateLeft 7 * 9⟩] }

/-- R206: the draw of the Mersenne Twister: an unseeded instance is seeded with 5489 first, an exhausted or unseeded one
twists, and then the word `y` at the index is tempered (R205, its four steps written out) and the index advances. -/
def Obligations.NextMersenne : Prop :=
  ∀ (s : Machine.State) (g : Generator), s.gen.alg = .mt64 →
    (s.gen.cur.toNat < 312 ∧ g = s.gen ∨ s.gen.cur = 312 ∧ g = mtTwist s.gen ∨
      s.gen.cur = 313 ∧ g = mtTwist (mtFill 5489 s.gen)) →
    ∃ h : g.cur.toNat < 312, ∀ y a b c : Word, y = g.S[g.cur.toNat] →
      a = y ^^^ ((y >>> 29) &&& 0x5555555555555555) → b = a ^^^ ((a <<< 17) &&& 0x71D67FFFEDA60000) →
      c = b ^^^ ((b <<< 37) &&& 0xFFF7EEE000000000) →
        exec .next s = .next { s with gen := { g with cur := g.cur + 1 }, out := s.out ++ [⟨.ok, c ^^^ (c >>> 43)⟩] }

/-- R204: the twist as a recurrence over the old and the new words: the word 156 ahead is old up to word 155 and new
from word 156 on, and the last word uses the new word 0. -/
def Obligations.TwistMixesOldAndNewWords : Prop :=
  ∀ g : Generator, (mtTwist g).cur = 0 ∧ (mtTwist g).alg = g.alg ∧ twistRecurrence g.S (mtTwist g).S

/-- R206 (b), R207: from a freshly seeded or an unseeded MT64 instance, with `p` before draw `k >= 1` and `g'` after it,
the array becomes its twist on draw 1, 313, 625 and so on (after the default fill if `p` is unseeded) and stays as it was on
every other draw; `CUR` is `(k - 1) mod 312 + 1`, so `CUR = 0` is never seen. -/
def Obligations.MersenneTwistsEvery312Draws : Prop :=
  ∀ (g p g' : Generator) (k : Nat), g.alg = .mt64 → (g.cur = 312 ∨ g.cur = 313) → 1 ≤ k →
    afterDraws hardware (k - 1) g = .ok p → afterDraws hardware k g = .ok g' →
      g'.cur.toNat = (k - 1) % 312 + 1 ∧
      g'.S = if (k - 1) % 312 = 0 then (mtTwist (if p.cur = 313 then mtFill 5489 p else p)).S else p.S

/-- R232: the draw of the permuted congruential generator in exact integers: `X' = (X * PCG_MUL + PCG_INC) mod 2^128`,
and the output is `HI ^ LO` of the new state rotated right by the top 6 bits of the new `HI`. The values of `PCG_MUL` and
`PCG_INC` are those of R10 and R230, parameters the spec takes from general knowledge; that the model takes them is its
choice (log entry 7). -/
def Obligations.NextPcg : Prop :=
  ∀ (s : Machine.State) (X : Nat) (lo hi : Word), s.gen.alg = .pcg →
    X = ((s.gen.S[1].toNat * 2 ^ 64 + s.gen.S[0].toNat) * 0x2360ED051FC65DA44385DF649FCCF645 +
      0x5851F42D4C957F2D14057B7EF767814F) % 2 ^ 128 →
    lo.toNat = X % 2 ^ 64 → hi.toNat = X / 2 ^ 64 →
      exec .next s =
        .next { s with
          gen := { s.gen with S := (s.gen.S.set 0 lo).set 1 hi },
          out := s.out ++ [⟨.ok, (hi ^^^ lo).rotateRight (hi.toNat / 2 ^ 58)⟩] }

/-- R234: the update in 64-bit pieces is the update of R232, for every value of the constants. -/
def Obligations.PcgPiecesAreTheUpdate : Prop :=
  ∀ (P : Config.Params) (lo hi : Word),
    pcgUpdatePieces P lo hi = (loWord (pcgUpdate P (hi ++ lo)), hiWord (pcgUpdate P (hi ++ lo)))

/-! ## Properties of the generators -/

/-- R167, R188: from the all-zero state of ALG 1 to 7, `NEXT` returns 0 and leaves every word as it was; only the cursor
of XS1024S moves. -/
def Obligations.AllZeroStateReturnsZero : Prop :=
  ∀ s : Machine.State, s.inv → s.gen.alg ≠ .sm64 → s.gen.alg ≠ .mt64 → s.gen.alg ≠ .pcg → allZero s.gen →
    exec .next s =
      .next { s with
        gen := { s.gen with cur := if s.gen.alg = .xs1024s then (s.gen.cur + 1) &&& 15 else s.gen.cur },
        out := s.out ++ [⟨.ok, 0⟩] }

/-- R167: no draw of an xorshift algorithm turns a state that is not all-zero into the all-zero one, with either legal
shift pair. -/
def Obligations.NonZeroStateStaysNonZero : Prop :=
  ∀ (P : Config.Params) (g g' : Generator) (v : Word), P.Legal → g.inv →
    (g.alg = .xs64s ∨ g.alg = .xs128p ∨ g.alg = .xs1024s) → ¬ allZero g → draw P g = .ok (v, g') → ¬ allZero g'

/-- R154: the output function of splitmix64 is a bijection on the 64-bit words and maps 0 to 0. -/
def Obligations.SplitMixOutputIsBijective : Prop := Function.Bijective smMix ∧ smMix 0 = 0

/-- R152, R154: the state word after `k` draws of splitmix64 from seed `s` is `s + k * 0x9E3779B97F4A7C15`, and it is
the seed again exactly when `2^64` divides `k`. -/
def Obligations.SplitMixStateSequence : Prop :=
  ∀ (P : Config.Params) (g : Generator) (k : Nat), g.alg = .sm64 →
    ∃ g', afterDraws P k g = .ok g' ∧ g'.S[0] = g.S[0] + BitVec.ofNat 64 k * 0x9E3779B97F4A7C15 ∧
      (g'.S[0] = g.S[0] ↔ 2 ^ 64 ∣ k)

/-- R142 (a) to (d): when a seed expansion is all-zero. -/
def Obligations.ExpansionAllZeroCases : Prop :=
  (∀ (s : Word) (n : Nat), 2 ≤ n → n ≤ 312 → ∃ w ∈ expandScalar s n, w ≠ 0) ∧
  (∀ s : Word, expandScalar s 1 = [0] ↔ s = 0x61C8864680B583EB) ∧
  (∀ (ws : List Word) (n : Nat), n ≤ ws.length →
    ((∀ w ∈ expandSlice ws n, w = 0) ↔ ∀ w ∈ ws.take n, w = 0)) ∧
  (∀ (ws : List Word) (n : Nat), ws.length < n → ∃ w ∈ expandSlice ws n, w ≠ 0)

/-! ## The sampler -/

/-- R241: of the `2^W` raw values, those accepted for a bound that is no power of two fall `2^W div n` times on each
residue. -/
def Obligations.AcceptedValuesAreUnbiased : Prop :=
  ∀ (W : Width) (n r : Nat), 1 ≤ n → n < 2 ^ widthBits W → r < n → (∀ k, n ≠ 2 ^ k) →
    ((Finset.range (2 ^ widthBits W)).filter fun v => v ≤ threshold W n ∧ v % n = r).card = 2 ^ widthBits W / n

/-- R241: the remainder `2^W mod n` is the negated bound, in `W` bits, modulo the bound. -/
def Obligations.ThresholdFromNegatedBound : Prop :=
  ∀ (W : Width) (n : Nat), 1 ≤ n → n < 2 ^ widthBits W →
    threshold W n = (2 ^ widthBits W - 1) - ((2 ^ widthBits W - n) % 2 ^ widthBits W) % n

/-- R247: more than half of all raw values are accepted, for every bound. -/
def Obligations.MoreThanHalfIsAccepted : Prop :=
  ∀ (W : Width) (n : Nat), 1 ≤ n → n < 2 ^ widthBits W → 2 ^ widthBits W < 2 * (threshold W n + 1)

/-- R242 to R245: a sampler command with a bound that is no power of two answers the first accepted raw value modulo the
bound, however many draws come before it, and leaves the instance after that draw. A raw value is accepted iff it is at
most `(2^W - 1) - (2^W mod n)` in exact integers (R240, R241; `acceptedRaw` of Safety.lean). -/
def Obligations.SamplerAnswersFirstAccepted : Prop :=
  ∀ (s : Machine.State) (n v : Word) (k : Nat) (g : Generator), n ≠ 0 → (∀ j, n.toNat ≠ 2 ^ j) →
    (firstAccepted hardware .w64 n s.gen k v g →
      exec (.unif64 n) s = .next { s with gen := g, out := s.out ++ [⟨.ok, v % n⟩] }) ∧
    (firstAccepted hardware .w32 n s.gen k v g → n.toNat ≤ 0xFFFFFFFF →
      exec (.unif32 n) s = .next { s with gen := g, out := s.out ++ [⟨.ok, (v >>> 32) % n⟩] }) ∧
    (firstAccepted hardware .w32 n s.gen k v g → n.toNat ≤ 0xFFFFFFFF →
      exec (.uintn n) s = .next { s with gen := g, out := s.out ++ [⟨.ok, (v >>> 32) % n⟩] }) ∧
    (firstAccepted hardware .w64 n s.gen k v g → 0xFFFFFFFF < n.toNat →
      exec (.uintn n) s = .next { s with gen := g, out := s.out ++ [⟨.ok, v % n⟩] })

/-- R242, R249: with a power of two as the bound a sampler command makes one draw and answers the raw value masked. -/
def Obligations.SamplerMasksForPowersOfTwo : Prop :=
  ∀ (s : Machine.State) (n v : Word) (k : Nat) (g : Generator), n.toNat = 2 ^ k → draw hardware s.gen = .ok (v, g) →
    exec (.unif64 n) s = .next { s with gen := g, out := s.out ++ [⟨.ok, v &&& (n - 1)⟩] } ∧
    (k < 32 → exec (.unif32 n) s = .next { s with gen := g, out := s.out ++ [⟨.ok, (v >>> 32) &&& (n - 1)⟩] }) ∧
    (k < 32 → exec (.uintn n) s = .next { s with gen := g, out := s.out ++ [⟨.ok, (v >>> 32) &&& (n - 1)⟩] }) ∧
    (32 ≤ k → exec (.uintn n) s = .next { s with gen := g, out := s.out ++ [⟨.ok, v &&& (n - 1)⟩] })

/-- R247: with a bound that is no power of two, a sampler command ends exactly if some raw value is accepted, with no
limit on how many are rejected before. That a command that never ends is the field `retrying` is the model's choice (log
entry 4). -/
def Obligations.SamplerEndsExactlyWhenAccepted : Prop :=
  ∀ (s : Machine.State) (n : Word) (i : Instr) (W : Width),
    s.inv → s.retrying = false → n ≠ 0 → (∀ j, n.toNat ≠ 2 ^ j) →
    (i = .unif64 n ∧ W = .w64 ∨ i = .unif32 n ∧ W = .w32 ∧ n.toNat ≤ 0xFFFFFFFF ∨
      i = .uintn n ∧ W = (if n.toNat ≤ 0xFFFFFFFF then .w32 else .w64)) →
    ((∃ k v g, firstAccepted hardware W n s.gen k v g) ↔ ∃ t, exec i s = .next t ∧ t.retrying = false)

/-- R243 to R245: the bounds a sampler command refuses; no draw is made and nothing else changes. -/
def Obligations.BadBoundFaults : Prop :=
  ∀ (s : Machine.State) (n : Word),
    exec (.unif64 0) s = .next { s with out := s.out ++ [⟨.badBound, 0⟩] } ∧
    exec (.uintn 0) s = .next { s with out := s.out ++ [⟨.badBound, 0⟩] } ∧
    exec (.unif32 0) s = .next { s with out := s.out ++ [⟨.badBound, 0⟩] } ∧
    (0xFFFFFFFF < n.toNat → exec (.unif32 n) s = .next { s with out := s.out ++ [⟨.badBound, 0⟩] })

/-- R245: `UINTN` is `UNIF32` for a bound up to `2^32 - 1` and `UNIF64` above. -/
def Obligations.UintnDispatchesByBound : Prop :=
  ∀ (s : Machine.State) (n : Word),
    (n.toNat ≤ 0xFFFFFFFF → exec (.uintn n) s = exec (.unif32 n) s) ∧
    (0xFFFFFFFF < n.toNat → exec (.uintn n) s = exec (.unif64 n) s)

/-- R243 to R245, R249: a sampler command that responds `OK` answers a value below its bound. -/
def Obligations.SamplerResultIsBelowTheBound : Prop :=
  ∀ (s t : Machine.State) (i : Instr) (n v : Word), (i = .unif64 n ∨ i = .unif32 n ∨ i = .uintn n) →
    exec i s = .next t → t.out = s.out ++ [⟨.ok, v⟩] → v.toNat < n.toNat

/-! ## The whole machine -/

/-- R45: the invariant holds after reset. -/
def Obligations.InvariantHoldsAtReset : Prop := State.reset.inv

/-- R45, R34, R207, R42: every step keeps the invariant: words outside the prefix are zero, `CUR` stands where R45 and
R207 let it, an unseeded MT64 instance has all words zero, and the buffer never holds a whole command. -/
def Obligations.StepKeepsTheInvariant : Prop :=
  ∀ s t : Machine.State, s.inv → step s = .next t → t.inv

/-- R88, R110, R118: from every state with the invariant a step goes on: no fault, no refusal, whatever the host sent. In
states without it a step can stop with a fault of the model's own (log entry 5). -/
def Obligations.StepNeverStops : Prop := ∀ s : Machine.State, s.inv → stepsOn s

/-- R273, R22: a command whose response is a fault leaves `ALG`, `S`, `CUR` and everything but that response as it
was, and the response carries data 0. -/
def Obligations.FaultingCommandChangesNothing : Prop :=
  ∀ (i : Instr) (s t : Machine.State) (r : Response), exec i s = .next t → t.out = s.out ++ [r] → r.st ≠ .ok →
    t = { s with out := s.out ++ [⟨r.st, 0⟩] }

/-- R90, R67, R247: a command gives exactly one response, after the ones before it, unless it never ends; then it gives
none, and its bound is no power of two. What a command that never ends leaves is the model's choice (log entry 4). -/
def Obligations.OneResponsePerCommand : Prop :=
  ∀ (i : Instr) (s t : Machine.State), s.retrying = false → exec i s = .next t →
    t.asm = s.asm ∧ t.port = s.port ∧
    ((t.retrying = false ∧ ∃ r, t.out = s.out ++ [r]) ∨
     (t.retrying = true ∧ t.out = s.out ∧ t.gen = s.gen ∧
      ∃ n : Word, (i = .unif64 n ∨ i = .unif32 n ∨ i = .uintn n) ∧ ∀ j, n.toNat ≠ 2 ^ j))

/-- R117, R246: between two seeding commands the instance depends only on the number of draws: `NEXT` is one draw, a
sampler command that responds `OK` is one or more, exactly one if its bound is a power of two. -/
def Obligations.DrawsAccountForTheState : Prop :=
  ∀ (i : Instr) (s t : Machine.State) (v : Word), exec i s = .next t → t.out = s.out ++ [⟨.ok, v⟩] →
    (i = .next → afterDraws hardware 1 s.gen = .ok t.gen) ∧
    (∀ n : Word, (i = .unif64 n ∨ i = .unif32 n ∨ i = .uintn n) →
      (∃ k, 1 ≤ k ∧ afterDraws hardware k s.gen = .ok t.gen) ∧
      ((∃ j, n.toNat = 2 ^ j) → afterDraws hardware 1 s.gen = .ok t.gen))

/-- R45 (d): an MT64 instance is unseeded only right after `SELECT`: no other command that responds `OK` leaves
`CUR = 313`. -/
def Obligations.UnseededOnlyAfterSelect : Prop :=
  ∀ (i : Instr) (s t : Machine.State) (v : Word), exec i s = .next t → t.out = s.out ++ [⟨.ok, v⟩] → t.gen.alg = .mt64 →
    s.inv → t.gen.cur = 313 → i = .select 8

/-! ## The host's side -/

/-- R254: results below their bounds make the inside-out shuffle a permutation of `0, ..., n - 1`. -/
def Obligations.UpermIsAPermutation : Prop :=
  ∀ js : List Nat, (∀ (i : Nat) (h : i < js.length), js[i] ≤ i) → (uperm js).Perm (List.range js.length)

/-- R257: `Int63` is the draw halved, and lies in `[0, 2^63)`. -/
def Obligations.Int63IsHalfTheDraw : Prop :=
  ∀ v : Word, int63 v = (v.toNat / 2 : Nat) ∧ 0 ≤ int63 v ∧ int63 v < 2 ^ 63

/-- R256: a buffer of `b` bytes takes `ceil(b / 8)` draws, and byte `8k + t` of it is bits `8t + 7 : 8t` of draw
`k`. -/
def Obligations.BulkBytesAreLittleEndian : Prop :=
  ∀ (b : Nat) (results : List Word), results.length = (b + 7) / 8 →
    bulkBytesCommands b = List.replicate results.length .next ∧ (bulkBytes b results).length = b ∧
    ∀ (k t : Nat) (hk : k < results.length), t < 8 → 8 * k + t < b →
      (bulkBytes b results)[8 * k + t]? = some (results[k].extractLsb' (8 * t) 8)

/-- R12 leaves the byte order of a narrower transport open. That it is one of two, least or most significant byte first,
is the model's choice (log entry 12). In either, a port word comes back from its eight bytes. -/
def Obligations.PortBytesComeBack : Prop :=
  ∀ (o : Config.ByteOrder) (w : Word), (bytesInOrder o w).length = 8 ∧ wordInOrder o (bytesInOrder o w) = w
end

