-- ==== Sys2Proof/Laws/State.lean ====
section
/-! SUPPORT. The small lemmas of the state: one per field per update, so that no later proof unfolds an update. -/

namespace Sys2Proof.Machine

/-! ## `withGen` -/

@[simp] theorem withGen_gen (s : State) (g : Generator) : (s.withGen g).gen = g := rfl
@[simp] theorem withGen_asm (s : State) (g : Generator) : (s.withGen g).asm = s.asm := rfl
@[simp] theorem withGen_retrying (s : State) (g : Generator) : (s.withGen g).retrying = s.retrying := rfl
@[simp] theorem withGen_port (s : State) (g : Generator) : (s.withGen g).port = s.port := rfl
@[simp] theorem withGen_out (s : State) (g : Generator) : (s.withGen g).out = s.out := rfl
@[simp] theorem withGen_self (s : State) : s.withGen s.gen = s := rfl

/-! ## `respond` and `raise` -/

@[simp] theorem respond_gen (s : State) (v : Word) : (s.respond v).gen = s.gen := rfl
@[simp] theorem respond_asm (s : State) (v : Word) : (s.respond v).asm = s.asm := rfl
@[simp] theorem respond_retrying (s : State) (v : Word) : (s.respond v).retrying = s.retrying := rfl
@[simp] theorem respond_port (s : State) (v : Word) : (s.respond v).port = s.port := rfl
@[simp] theorem respond_out (s : State) (v : Word) : (s.respond v).out = s.out ++ [⟨.ok, v⟩] := rfl

@[simp] theorem raise_gen (s : State) (f : Status) : (s.raise f).gen = s.gen := rfl
@[simp] theorem raise_asm (s : State) (f : Status) : (s.raise f).asm = s.asm := rfl
@[simp] theorem raise_retrying (s : State) (f : Status) : (s.raise f).retrying = s.retrying := rfl
@[simp] theorem raise_port (s : State) (f : Status) : (s.raise f).port = s.port := rfl
@[simp] theorem raise_out (s : State) (f : Status) : (s.raise f).out = s.out ++ [⟨f, 0⟩] := rfl

/-! ## `consumeCommand`, `loadWords`, `send`, `afterReset` -/

@[simp] theorem consumeCommand_gen (s : State) (r : List Word) : (consumeCommand s r).gen = s.gen := rfl
@[simp] theorem consumeCommand_asm (s : State) (r : List Word) : (consumeCommand s r).asm = [] := rfl
@[simp] theorem consumeCommand_retrying (s : State) (r : List Word) :
    (consumeCommand s r).retrying = s.retrying := rfl
@[simp] theorem consumeCommand_port (s : State) (r : List Word) :
    (consumeCommand s r).port = r.map .word ++ countFinished (portTail s.port) := rfl
@[simp] theorem consumeCommand_out (s : State) (r : List Word) : (consumeCommand s r).out = s.out := rfl

@[simp] theorem loadWords_gen (s : State) (ws : List Word) : (loadWords s ws).gen = s.gen := rfl
@[simp] theorem loadWords_asm (s : State) (ws : List Word) : (loadWords s ws).asm = [] := rfl
@[simp] theorem loadWords_retrying (s : State) (ws : List Word) : (loadWords s ws).retrying = false := rfl
@[simp] theorem loadWords_port (s : State) (ws : List Word) :
    (loadWords s ws).port = ws.map .word ++ allowOneMore s.port := rfl
@[simp] theorem loadWords_out (s : State) (ws : List Word) : (loadWords s ws).out = s.out := rfl

@[simp] theorem send_gen (s : State) (ws : List Word) : (s.send ws).gen = s.gen := rfl
@[simp] theorem send_asm (s : State) (ws : List Word) : (s.send ws).asm = s.asm := rfl
@[simp] theorem send_retrying (s : State) (ws : List Word) : (s.send ws).retrying = s.retrying := rfl
@[simp] theorem send_port (s : State) (ws : List Word) : (s.send ws).port = s.port ++ ws.map .word := rfl
@[simp] theorem send_out (s : State) (ws : List Word) : (s.send ws).out = s.out := rfl

@[simp] theorem afterReset_gen (es : List PortEvent) : (afterReset es).gen = State.reset.gen := rfl
@[simp] theorem afterReset_asm (es : List PortEvent) : (afterReset es).asm = [] := rfl
@[simp] theorem afterReset_retrying (es : List PortEvent) : (afterReset es).retrying = false := rfl
@[simp] theorem afterReset_port (es : List PortEvent) : (afterReset es).port = es := rfl
@[simp] theorem afterReset_out (es : List PortEvent) : (afterReset es).out = [] := rfl

/-! ## The port: words up to the first reset, and the rest -/

@[simp] theorem portWords_nil : portWords [] = [] := rfl
@[simp] theorem portWords_word (w : Word) (es : List PortEvent) :
    portWords (.word w :: es) = w :: portWords es := rfl
@[simp] theorem portWords_reset (k : Nat) (es : List PortEvent) : portWords (.reset k :: es) = [] := rfl
@[simp] theorem portTail_nil : portTail [] = [] := rfl
@[simp] theorem portTail_word (w : Word) (es : List PortEvent) : portTail (.word w :: es) = portTail es := rfl
@[simp] theorem portTail_reset (k : Nat) (es : List PortEvent) : portTail (.reset k :: es) = .reset k :: es := rfl
@[simp] theorem countFinished_nil : countFinished [] = [] := rfl
@[simp] theorem countFinished_zero (es : List PortEvent) : countFinished (.reset 0 :: es) = .reset 0 :: es := rfl
@[simp] theorem countFinished_succ (k : Nat) (es : List PortEvent) :
    countFinished (.reset (k + 1) :: es) = .reset k :: es := rfl

/-- The port is its words up to the first reset, and then the rest. -/
theorem port_eq_words_append_tail (es : List PortEvent) : (portWords es).map .word ++ portTail es = es := by
  induction es with
  | nil => rfl
  | cons e es ih => cases e <;> simp [ih]

@[simp] theorem portWords_map_word (ws : List Word) (es : List PortEvent) :
    portWords (ws.map .word ++ es) = ws ++ portWords es := by
  induction ws with
  | nil => rfl
  | cons w ws ih => simp [ih]

@[simp] theorem portTail_map_word (ws : List Word) (es : List PortEvent) :
    portTail (ws.map .word ++ es) = portTail es := by
  induction ws with
  | nil => rfl
  | cons w ws ih => simp [ih]

@[simp] theorem portWords_map_word_only (ws : List Word) : portWords (ws.map .word) = ws := by
  simpa using portWords_map_word ws []

@[simp] theorem portTail_map_word_only (ws : List Word) : portTail (ws.map .word) = [] := by
  simpa using portTail_map_word ws []

/-- What follows the words is nothing, or a reset. -/
theorem portTail_cases (es : List PortEvent) : portTail es = [] ∨ ∃ k ahead, portTail es = .reset k :: ahead := by
  induction es with
  | nil => exact .inl rfl
  | cons e es ih => cases e with
    | word w => simpa using ih
    | reset k => exact .inr ⟨k, es, rfl⟩

@[simp] theorem portWords_allowOneMore (es : List PortEvent) : portWords (allowOneMore es) = portWords es := by
  induction es with
  | nil => rfl
  | cons e es ih => cases e <;> simp [allowOneMore, ih]

/-- No reset arrives before the loaded instruction is finished. -/
theorem portTail_allowOneMore_ne (es ahead : List PortEvent) : portTail (allowOneMore es) ≠ .reset 0 :: ahead := by
  induction es with
  | nil => simp [allowOneMore]
  | cons e es ih => cases e <;> simp [allowOneMore, ih]

@[simp] theorem visibleWords_loadWords (s : State) (ws : List Word) :
    visibleWords (loadWords s ws) = ws ++ portWords s.port := by
  simp [visibleWords]

/-! ## A reset that arrives -/

/-- A reset arrives exactly if it stands next at the inputs with no command left to finish. -/
theorem resetArrives_eq_true {s : State} : resetArrives s = true ↔ ∃ ahead, portTail s.port = .reset 0 :: ahead := by
  rcases portTail_cases s.port with h | ⟨k, ahead, h⟩
  · simp [resetArrives, h]
  · cases k <;> simp [resetArrives, h]

theorem resetArrives_eq_false {s : State} : resetArrives s = false ↔ ∀ ahead, portTail s.port ≠ .reset 0 :: ahead := by
  rw [← Bool.not_eq_true, resetArrives_eq_true, not_exists]

@[simp] theorem resetArrives_loadWords (s : State) (ws : List Word) : resetArrives (loadWords s ws) = false :=
  resetArrives_eq_false.2 fun ahead => by simpa using portTail_allowOneMore_ne s.port ahead

theorem takeReset_of_tail {s : State} {k : Nat} {ahead : List PortEvent} (h : portTail s.port = .reset k :: ahead) :
    takeReset s = afterReset ahead := by
  simp only [takeReset, h]

theorem takeReset_of_nil {s : State} (h : portTail s.port = []) : takeReset s = s := by
  simp only [takeReset, h]

end Sys2Proof.Machine
end

