-- ==== Sys2Proof/Laws/Decode.lean ====
section
/-! SUPPORT. What the decoder can do, said once: the fields of an encoded header, how `takeWords` splits a list, and the
inversion of `decode`. -/

namespace Sys2Proof

/-! ## Header fields -/

@[simp] theorem opcOf_headerOf (o : BitVec 8) (a : BitVec 4) (l : BitVec 16) : opcOf (headerOf o a l) = o := by
  ext i hi
  simp [opcOf, headerOf]
  grind

@[simp] theorem algfOf_headerOf (o : BitVec 8) (a : BitVec 4) (l : BitVec 16) : algfOf (headerOf o a l) = a := by
  ext i hi
  simp [algfOf, headerOf]
  grind

@[simp] theorem rsvOf_headerOf (o : BitVec 8) (a : BitVec 4) (l : BitVec 16) : rsvOf (headerOf o a l) = 0 := by
  ext i hi
  simp [rsvOf, headerOf]
  grind

@[simp] theorem lenOf_headerOf (o : BitVec 8) (a : BitVec 4) (l : BitVec 16) : lenOf (headerOf o a l) = l := by
  ext i hi
  simp [lenOf, headerOf]
  grind

/-- A header is its fields: with `RSV = 0`, it is the header made of its other three (R81). -/
theorem eq_headerOf_of_rsv (h : Word) (hr : rsvOf h = 0) : h = headerOf (opcOf h) (algfOf h) (lenOf h) := by
  have e : ∀ j, j < 36 → h.getLsbD (16 + j) = false := by
    intro j hj
    have := congrArg (fun (x : BitVec 36) => x.getLsbD j) hr
    simpa [rsvOf, hj] using this
  ext i hi
  have := e (i - 16)
  simp [opcOf, algfOf, lenOf, headerOf]
  grind

/-! ## Framing -/

/-- `takeWords` splits a list after `k` words, and does so whenever there are that many. -/
theorem takeWords_eq_some {k : Nat} {ws p rest : List Word} :
    takeWords k ws = some (p, rest) ↔ ws = p ++ rest ∧ p.length = k := by
  induction k generalizing ws p rest with
  | zero => simp [takeWords]; constructor
            · rintro ⟨rfl, rfl⟩; simp
            · rintro ⟨rfl, rfl⟩; simp
  | succ k ih =>
    cases ws with
    | nil => simp [takeWords]; rintro rfl; simp
    | cons w ws =>
      simp only [takeWords]
      cases h : takeWords k ws with
      | none =>
        simp only [reduceCtorEq, false_iff]
        rintro ⟨e, hl⟩
        cases p with
        | nil => simp at hl
        | cons x p =>
          simp at e hl
          have := (ih (ws := ws) (p := p)).2 ⟨e.2, hl⟩
          rw [h] at this
          cases this
      | some q =>
        obtain ⟨p', r'⟩ := q
        simp only [Option.some.injEq, Prod.mk.injEq]
        obtain ⟨rfl, rfl⟩ := (ih).1 h
        constructor
        · rintro ⟨rfl, rfl⟩; simp
        · rintro ⟨e, hl⟩
          cases p with
          | nil => simp at hl
          | cons x p =>
            simp at e hl
            obtain ⟨rfl, e⟩ := e
            have := List.append_inj e (by omega)
            simp [this]

/-- `takeWords` finds nothing exactly when there are too few words. -/
theorem takeWords_eq_none {k : Nat} {ws : List Word} : takeWords k ws = none ↔ ws.length < k := by
  induction k generalizing ws with
  | zero => simp [takeWords]
  | succ k ih =>
    cases ws with
    | nil => simp [takeWords]
    | cons w ws =>
      simp only [takeWords]
      cases h : takeWords k ws with
      | none => simpa using (ih.1 h)
      | some q =>
        simp only [reduceCtorEq, false_iff, not_lt]
        obtain ⟨p, r⟩ := q
        obtain ⟨rfl, rfl⟩ := takeWords_eq_some.1 h
        simp

/-- One command from words that begin with a header and its whole payload. -/
theorem decode_framed (h : Word) (p rest : List Word) (hp : p.length = payloadCount h) :
    decode (h :: (p ++ rest)) =
      match decodeCommand h p with
      | .ok i => .ok (i, rest)
      | .error why => .error (.illegal why rest) := by
  have : takeWords (payloadCount h) (p ++ rest) = some (p, rest) := takeWords_eq_some.2 ⟨rfl, hp⟩
  cases hd : decodeCommand h p <;> simp only [decode, this, hd]

/-- Words that do not hold a whole command are incomplete, and only they are (R110 step 1). -/
theorem decode_eq_incomplete {ws : List Word} :
    decode ws = .error .incomplete ↔ ∀ h p, ws = h :: p → p.length < payloadCount h := by
  cases ws with
  | nil => simp [decode]
  | cons h ws =>
    constructor
    · intro hd h' p e
      obtain ⟨rfl, rfl⟩ := List.cons.inj e
      simp only [decode] at hd
      cases ht : takeWords (payloadCount h) ws with
      | none => exact takeWords_eq_none.1 ht
      | some q =>
        rw [ht] at hd
        dsimp only at hd
        split at hd <;> simp at hd
    · intro hl
      have := takeWords_eq_none.2 (hl h ws rfl)
      simp only [decode, this]

/-- The inversion of `decode`: a command is read from a header, the payload the header asks for, and what follows. -/
theorem decode_eq_ok {ws rest : List Word} {i : Instr} :
    decode ws = .ok (i, rest) ↔
      ∃ h p, ws = h :: (p ++ rest) ∧ p.length = payloadCount h ∧ decodeCommand h p = .ok i := by
  constructor
  · intro hd
    cases ws with
    | nil => simp [decode] at hd
    | cons h ws =>
      simp only [decode] at hd
      cases ht : takeWords (payloadCount h) ws with
      | none => simp [ht] at hd
      | some q =>
        obtain ⟨p, r⟩ := q
        rw [ht] at hd
        obtain ⟨rfl, hp⟩ := takeWords_eq_some.1 ht
        dsimp only at hd
        cases hc : decodeCommand h p with
        | error why => simp [hc] at hd
        | ok j =>
          simp only [hc, Except.ok.injEq, Prod.mk.injEq] at hd
          obtain ⟨rfl, rfl⟩ := hd
          exact ⟨h, p, rfl, hp, hc⟩
  · rintro ⟨h, p, rfl, hp, hc⟩
    rw [decode_framed h p rest hp, hc]

/-- The inversion of a rejection for an illegal header: its payload is taken off all the same (R83). -/
theorem decode_eq_illegal {ws rest : List Word} {why : IllegalHeader} :
    decode ws = .error (.illegal why rest) ↔
      ∃ h p, ws = h :: (p ++ rest) ∧ p.length = payloadCount h ∧ decodeCommand h p = .error why := by
  constructor
  · intro hd
    cases ws with
    | nil => simp [decode] at hd
    | cons h ws =>
      simp only [decode] at hd
      cases ht : takeWords (payloadCount h) ws with
      | none => simp [ht] at hd
      | some q =>
        obtain ⟨p, r⟩ := q
        rw [ht] at hd
        obtain ⟨rfl, hp⟩ := takeWords_eq_some.1 ht
        dsimp only at hd
        cases hc : decodeCommand h p with
        | ok j => simp [hc] at hd
        | error w =>
          simp only [hc, Except.error.injEq, Reject.illegal.injEq] at hd
          obtain ⟨rfl, rfl⟩ := hd
          exact ⟨h, p, rfl, hp, hc⟩
  · rintro ⟨h, p, rfl, hp, hc⟩
    rw [decode_framed h p rest hp, hc]

/-- What follows a command does not change how it is read: words sent after it are simply left over. -/
theorem decode_append {ws : List Word} (more : List Word) (hne : decode ws ≠ .error .incomplete) :
    decode (ws ++ more) =
      match decode ws with
      | .ok (i, rest) => .ok (i, rest ++ more)
      | .error (.illegal why rest) => .error (.illegal why (rest ++ more))
      | .error .incomplete => .error .incomplete := by
  cases hd : decode ws with
  | ok q =>
    obtain ⟨i, rest⟩ := q
    obtain ⟨h, p, rfl, hp, hc⟩ := decode_eq_ok.1 hd
    exact decode_eq_ok.2 ⟨h, p, by simp, hp, hc⟩
  | error e =>
    cases e with
    | incomplete => exact absurd hd hne
    | illegal why rest =>
      obtain ⟨h, p, rfl, hp, hc⟩ := decode_eq_illegal.1 hd
      exact decode_eq_illegal.2 ⟨h, p, by simp, hp, hc⟩

end Sys2Proof
end

