-- ==== Sys2Proof/Laws/Words.lean ====
section
/-! SUPPORT. What the operations over the state array and the seed expansion can do, said once. -/

namespace Sys2Proof.Machine

/-! ## `writeWords` -/

/-- `writeWords` puts the list at its place and leaves every other word. -/
theorem writeWords_getElem (ws : List Word) (S : Words) (i j : Nat) (hj : j < 312) :
    (writeWords S i ws)[j] = if h : i ≤ j ∧ j < i + ws.length then ws[j - i]'(by omega) else S[j] := by
  induction ws generalizing S i with
  | nil => simp [writeWords]
  | cons w ws ih =>
    simp only [writeWords, ih, List.length_cons]
    by_cases h1 : i + 1 ≤ j ∧ j < i + 1 + ws.length
    · have h2 : i ≤ j ∧ j < i + (ws.length + 1) := by omega
      have e : j - i = (j - (i + 1)) + 1 := by omega
      simp [h1, h2, e]
    · by_cases h3 : i = j
      · subst h3
        simp
      · have h2 : ¬ (i ≤ j ∧ j < i + (ws.length + 1)) := by omega
        rw [dif_neg h1, dif_neg h2, Vector.getElem_setIfInBounds_ne _ h3]

/-- A list written at word 0, read inside it. -/
theorem writeWords_zero_lt (ws : List Word) (S : Words) (j : Nat) (hj : j < 312) (h : j < ws.length) :
    (writeWords S 0 ws)[j] = ws[j] := by
  simp [writeWords_getElem, h]

/-- A list written at word 0, read beyond it. -/
theorem writeWords_zero_ge (ws : List Word) (S : Words) (j : Nat) (hj : j < 312) (h : ws.length ≤ j) :
    (writeWords S 0 ws)[j] = S[j] := by
  have : ¬ j < ws.length := by omega
  simp [writeWords_getElem, this]

/-! ## `forWords` -/

@[simp] theorem forWords_zero (f : Fin 312 → Words → Words) (i : Fin 312) (S : Words) : forWords f 0 i S = S := rfl

theorem forWords_succ (f : Fin 312 → Words → Words) (k : Nat) (i : Fin 312) (S : Words) :
    forWords f (k + 1) i S = forWords f k (i + 1) (f i S) := rfl

/-- The last turn of `forWords` taken out. -/
theorem forWords_succ_last (f : Fin 312 → Words → Words) (k : Nat) (i : Fin 312) (S : Words) :
    forWords f (k + 1) i S = f (i + Fin.ofNat 312 k) (forWords f k i S) := by
  induction k generalizing i S with
  | zero => simp [forWords]
  | succ k ih =>
    rw [forWords_succ, ih, forWords_succ]
    congr 1
    apply Fin.ext
    simp [Fin.val_add]
    omega

/-! ## Seed expansion -/

@[simp] theorem expandScalar_length (z : Word) (n : Nat) : (expandScalar z n).length = n := by
  induction n generalizing z with
  | zero => rfl
  | succ n ih => simp [expandScalar, ih]

/-- The `k`-th word of an expansion is the mixing of the `k + 1`-st state of the private splitmix64. -/
theorem expandScalar_getElem (z : Word) (n k : Nat) (h : k < (expandScalar z n).length) :
    (expandScalar z n)[k] = smMix (z + BitVec.ofNat 64 (k + 1) * smIncrement) := by
  induction n generalizing z k with
  | zero => simp at h
  | succ n ih =>
    cases k with
    | zero => simp [expandScalar, sm]
    | succ k =>
      simp only [expandScalar, sm, List.getElem_cons_succ]
      rw [ih]
      have : BitVec.ofNat 64 (k + 1 + 1) = 1#64 + BitVec.ofNat 64 (k + 1) := by
        rw [Nat.add_comm (k + 1) 1, BitVec.ofNat_add]
      rw [this, BitVec.add_mul, BitVec.one_mul, BitVec.add_assoc]

@[simp] theorem expandSlice_length (words : List Word) (n : Nat) : (expandSlice words n).length = n := by
  simp [expandSlice]

/-- The leading words of a slice expansion are the slice's, verbatim (R141). -/
theorem expandSlice_copied (words : List Word) (n k : Nat) (h : k < n) (hw : k < words.length) :
    (expandSlice words n)[k]'(by simpa using h) = words[k] := by
  have : k < (words.take n).length := by simp; omega
  simp [expandSlice, List.getElem_append_left this]

/-- A slice at least as long as the state is copied and cut off (R141). -/
theorem expandSlice_long (words : List Word) (n : Nat) (h : n ≤ words.length) : expandSlice words n = words.take n := by
  simp [expandSlice, h, expandScalar]

/-- An empty slice is expanded from 0 (R141). -/
theorem expandSlice_nil (n : Nat) : expandSlice [] n = expandScalar 0 n := by
  simp [expandSlice]

end Sys2Proof.Machine
end

