-- ==== Sys2Proof/Laws/Draw.lean ====
section
/-! SUPPORT. What seeding and drawing can do to an instance, said once: `ALG` stays, the words the algorithm does not
use stay, and where `CUR` goes. -/

namespace Sys2Proof.Machine

/-! ## The Mersenne Twister's parts -/

@[simp] theorem mtFill_alg (s : Word) (g : Generator) : (mtFill s g).alg = g.alg := by simp only [mtFill]
@[simp] theorem mtFill_cur (s : Word) (g : Generator) : (mtFill s g).cur = mtExhausted := by simp only [mtFill]
@[simp] theorem mtTwist_alg (g : Generator) : (mtTwist g).alg = g.alg := by simp only [mtTwist]
@[simp] theorem mtTwist_cur (g : Generator) : (mtTwist g).cur = 0 := by simp only [mtTwist]
@[simp] theorem seedSliceMt_alg (ws : List Word) (g : Generator) : (seedSliceMt ws g).alg = g.alg := by simp only [seedSliceMt, mtFill]
@[simp] theorem seedSliceMt_cur (ws : List Word) (g : Generator) : (seedSliceMt ws g).cur = mtExhausted := by simp only [seedSliceMt, mtFill]

@[simp] theorem mtReady_alg (g : Generator) : (mtReady g).alg = g.alg := by
  simp only [mtReady]
  split <;> split <;> simp only [mtTwist_alg, mtFill_alg]

/-- An instance whose buffer is ready is read as it is (R201, R206). -/
theorem mtReady_of_lt (g : Generator) (h : g.cur.toNat < 312) : mtReady g = g := by
  have h1 : g.cur ≠ mtUnseeded := by rintro e; simp [e, mtUnseeded] at h
  have h2 : g.cur ≠ mtExhausted := by rintro e; simp [e, mtExhausted] at h
  simp [mtReady, h1, h2]

/-- An exhausted instance twists (R206). -/
theorem mtReady_exhausted (g : Generator) (h : g.cur = mtExhausted) : mtReady g = mtTwist g := by
  simp [mtReady, h, mtExhausted, mtUnseeded]

/-- An unseeded instance is seeded with 5489 and then twists (R206). -/
theorem mtReady_unseeded (g : Generator) (h : g.cur = mtUnseeded) :
    mtReady g = mtTwist (mtFill mtDefaultSeed g) := by
  simp [mtReady, h]

/-- Where `CUR` stands when a draw reads: unchanged or 0 (R206). -/
theorem mtReady_cur (g : Generator) :
    (mtReady g).cur = if g.cur = mtUnseeded ∨ g.cur = mtExhausted then 0 else g.cur := by
  by_cases h1 : g.cur = mtUnseeded
  · simp [mtReady_unseeded g h1, h1]
  · by_cases h2 : g.cur = mtExhausted
    · simp [mtReady_exhausted g h2, h2]
    · simp [mtReady, h1, h2]

/-- What a draw of the Mersenne Twister is, if it is one (R206). -/
theorem drawMt_eq_ok {g g' : Generator} {v : Word} (h : drawMt g = .ok (v, g')) :
    ∃ hc : (mtReady g).cur.toNat < 312,
      v = mtTemper (mtReady g).S[(mtReady g).cur.toNat] ∧ g' = { mtReady g with cur := (mtReady g).cur + 1 } := by
  simp only [drawMt] at h
  split at h
  · rename_i hc
    simp only [Except.ok.injEq, Prod.mk.injEq] at h
    exact ⟨hc, h.1.symm, h.2.symm⟩
  · simp at h

/-- A draw of the Mersenne Twister succeeds for every `CUR` up to 313 (R206). -/
theorem drawMt_ok (g : Generator) (h : g.cur.toNat ≤ 313) :
    ∃ hc : (mtReady g).cur.toNat < 312,
      drawMt g = .ok (mtTemper (mtReady g).S[(mtReady g).cur.toNat], { mtReady g with cur := (mtReady g).cur + 1 }) := by
  have hc : (mtReady g).cur.toNat < 312 := by
    rw [mtReady_cur]
    split
    · decide
    · rename_i hn
      have h1 : g.cur.toNat ≠ 313 := fun e => hn (.inl (BitVec.eq_of_toNat_eq (by simpa [mtUnseeded] using e)))
      have h2 : g.cur.toNat ≠ 312 := fun e => hn (.inr (BitVec.eq_of_toNat_eq (by simpa [mtExhausted] using e)))
      omega
  exact ⟨hc, by simp [drawMt, hc]⟩

/-! ## xorshift1024* -/

/-- The ring cursor after a draw is below 16 (R165). -/
theorem ringNext_le (p : BitVec 9) : (ringNext p).toNat ≤ 15 := by
  simp only [ringNext, BitVec.toNat_and]
  exact Nat.and_le_right

/-- What a draw of xorshift1024* is, if it is one (R165): one word, at the advanced cursor, changes. -/
theorem drawXs1024s_eq_ok {g g' : Generator} {v : Word} (h : drawXs1024s g = .ok (v, g')) :
    g.cur.toNat < 312 ∧
      ∃ x, v = x * 1181783497276652981 ∧
        g' = { g with S := g.S.set (ringNext g.cur).toNat x (ringNext_lt g.cur), cur := ringNext g.cur } := by
  simp only [drawXs1024s] at h
  split at h
  · rename_i hc
    simp only [Except.ok.injEq, Prod.mk.injEq] at h
    exact ⟨hc, _, h.1.symm, h.2.symm⟩
  · simp at h

/-- A draw of xorshift1024* succeeds for every cursor that is an index of `S`. -/
theorem drawXs1024s_ok (g : Generator) (h : g.cur.toNat < 312) : ∃ q, drawXs1024s g = .ok q := by
  simp [drawXs1024s, h]

/-! ## Every algorithm -/

/-- A draw keeps `ALG`. -/
theorem draw_alg {P : Config.Params} {g g' : Generator} {v : Word} (h : draw P g = .ok (v, g')) : g'.alg = g.alg := by
  unfold draw at h
  split at h
  case h_4 => obtain ⟨-, x, -, rfl⟩ := drawXs1024s_eq_ok h; rfl
  case h_9 => obtain ⟨-, -, rfl⟩ := drawMt_eq_ok h; simp
  all_goals
    simp only [Except.ok.injEq] at h
    have h2 := (Prod.mk.inj h).2
    subst h2
    rfl

/-- A draw leaves the words outside the algorithm's prefix (R34). -/
theorem draw_frame {P : Config.Params} {g g' : Generator} {v : Word} (h : draw P g = .ok (v, g')) (i : Nat)
    (hi : i < 312) (hn : stateWords g.alg ≤ i) : g'.S[i] = g.S[i] := by
  unfold draw at h
  split at h
  case h_4 ha =>
    obtain ⟨-, x, -, rfl⟩ := drawXs1024s_eq_ok h
    have := ringNext_le g.cur
    simp only [ha, stateWords] at hn
    exact Vector.getElem_set_ne (ringNext_lt g.cur) hi (by omega)
  case h_9 ha => simp only [ha, stateWords] at hn; omega
  all_goals
    rename_i ha
    simp only [Except.ok.injEq] at h
    have h2 := (Prod.mk.inj h).2
    subst h2
    simp only [ha, stateWords] at hn
    simp only [stepXo128, stepXo256]
    repeat rw [Vector.getElem_set_ne _ _ (by omega)]

/-- A draw succeeds in every instance whose cursor the invariant allows. -/
theorem draw_ok (P : Config.Params) (g : Generator) (hg : cursorLegal g) : ∃ v g', draw P g = .ok (v, g') := by
  suffices h : ∃ q, draw P g = .ok q from let ⟨q, hq⟩ := h; ⟨q.1, q.2, hq⟩
  unfold cursorLegal at hg
  unfold draw
  split at hg
  case h_1 ha => obtain ⟨q, hq⟩ := drawXs1024s_ok g (by omega); simp [ha, hq]
  case h_2 ha => obtain ⟨hc, hq⟩ := drawMt_ok g hg.2.1; simp [ha, hq]
  all_goals
    rename_i ha
    simp [ha]

/-- Scalar seeding keeps `ALG`. -/
@[simp] theorem seedScalar_alg (P : Config.Params) (s : Word) (g : Generator) : (seedScalar P s g).alg = g.alg := by
  unfold seedScalar
  split
  case h_9 => exact mtFill_alg s g
  all_goals rfl

/-- Scalar seeding leaves the words outside the algorithm's prefix (R34). -/
theorem seedScalar_frame (P : Config.Params) (s : Word) (g : Generator) (i : Nat) (hi : i < 312)
    (hn : stateWords g.alg ≤ i) : (seedScalar P s g).S[i] = g.S[i] := by
  unfold seedScalar
  split
  case h_1 ha => simp only [ha, stateWords] at hn; exact Vector.getElem_set_ne (by omega) hi (by omega)
  case h_9 ha => simp only [ha, stateWords] at hn; omega
  all_goals
    rename_i ha
    simp only [ha, stateWords] at hn
    simp only [seedXorshift, seedXoroshiro, seedPcg, ha, stateWords]
    exact writeWords_zero_ge _ _ _ _ (by simpa using hn)

/-- Where `CUR` stands after scalar seeding (R151, R161, R180, R202, R231). -/
theorem seedScalar_cur (P : Config.Params) (s : Word) (g : Generator) :
    (seedScalar P s g).cur =
      match g.alg with
      | .xs64s | .xs128p | .xs1024s => 0
      | .mt64 => 312
      | .sm64 | .xo128p | .xo128ss | .xo256p | .xo256ss | .pcg => g.cur := by
  unfold seedScalar
  split <;> (rename_i ha; simp [ha, seedSm64, seedXorshift, seedXoroshiro, seedPcg, mtExhausted])

/-- Slice seeding keeps `ALG`, leaves the words outside the prefix, and is there for ALG 1, 2, 3 and 8 only, with `CUR`
at 0 or 312 (R113, R162, R203). -/
theorem seedSlice_cases {ws : List Word} {g g' : Generator} (h : seedSlice ws g = some g') :
    g'.alg = g.alg ∧
    (∀ (i : Nat) (hi : i < 312), stateWords g.alg ≤ i → g'.S[i] = g.S[i]) ∧
    ((g.alg = .xs64s ∨ g.alg = .xs128p ∨ g.alg = .xs1024s) ∧ g'.cur = 0 ∨ g.alg = .mt64 ∧ g'.cur = 312) := by
  unfold seedSlice at h
  split at h
  case h_9 ha =>
    obtain rfl := Option.some.inj h
    refine ⟨by simp, fun i hi hn => ?_, by simp [ha, mtExhausted]⟩
    simp only [ha, stateWords] at hn
    omega
  all_goals first
    | (simp at h; done)
    | (rename_i ha
       obtain rfl := Option.some.inj h
       refine ⟨rfl, fun i hi hn => ?_, by simp [ha, seedSliceXorshift]⟩
       exact writeWords_zero_ge _ _ _ _ (by simpa using hn))

end Sys2Proof.Machine
end

