-- ==== Sys2Proof/Laws/Sampler.lean ====
section
/-! SUPPORT. What the retry loop can do, said once, and why `passBound` passes are as good as a loop without a bound. -/

namespace Sys2Proof.Machine

variable {P : Config.Params} {W : Width} {n : Word}

/-! ## Draws in a row -/

@[simp] theorem drawNth_zero (g : Generator) : drawNth P 0 g = draw P g := rfl

theorem drawNth_succ_of_ok {g g' : Generator} {v : Word} (h : draw P g = .ok (v, g')) (k : Nat) :
    drawNth P (k + 1) g = drawNth P k g' := by
  simp only [drawNth, h]

@[simp] theorem afterDraws_zero (g : Generator) : afterDraws P 0 g = .ok g := rfl

theorem afterDraws_succ_of_ok {g g' : Generator} {v : Word} (h : draw P g = .ok (v, g')) (k : Nat) :
    afterDraws P (k + 1) g = afterDraws P k g' := by
  simp only [afterDraws, h]

/-- The instance after the `k`-th draw is the one after `k + 1` draws. -/
theorem afterDraws_of_drawNth {k : Nat} {g g' : Generator} {v : Word} (h : drawNth P k g = .ok (v, g')) :
    afterDraws P (k + 1) g = .ok g' := by
  induction k generalizing g with
  | zero => rw [afterDraws_succ_of_ok (by simpa using h)]; rfl
  | succ k ih =>
    cases hd : draw P g with
    | error f => simp [drawNth, hd] at h
    | ok q =>
      obtain ⟨u, g1⟩ := q
      rw [drawNth_succ_of_ok hd] at h
      rw [afterDraws_succ_of_ok hd]
      exact ih h

/-! ## The acceptance test and the test for a power of two -/

/-- The block's acceptance test is the comparison of R241 in exact integers. -/
theorem accepts_rawValue (v : Word) : accepts W n (rawValue W v) = true ↔ acceptedRaw W n v := by
  cases W with
  | w32 =>
    rw [accepts, decide_eq_true_iff, rawValue, hi32, BitVec.toNat_ushiftRight, Nat.shiftRight_eq_div_pow]
    rfl
  | w64 => rw [accepts, decide_eq_true_iff]; rfl

/-- The first accepted draw, by the block's own test. -/
theorem firstAccepted_iff {g g' : Generator} {k : Nat} {v : Word} :
    firstAccepted P W n g k v g' ↔ drawNth P k g = .ok (v, g') ∧ accepts W n (rawValue W v) = true ∧
      ∀ j < k, ∃ u h, drawNth P j g = .ok (u, h) ∧ accepts W n (rawValue W u) = false := by
  simp only [firstAccepted, ← accepts_rawValue, Bool.not_eq_true]

/-- The test of R242 finds the powers of two, and 0. -/
theorem isPowerOfTwo_iff (hn : n ≠ 0) : isPowerOfTwo n = true ↔ ∃ j, n.toNat = 2 ^ j := by
  have h0 : n.toNat ≠ 0 := fun h => hn (BitVec.eq_of_toNat_eq h)
  have h1 : (n - 1).toNat = n.toNat - 1 := by
    rw [BitVec.toNat_sub_of_le (by rw [BitVec.le_def]; simp; omega)]
    rfl
  rw [← Nat.isPowerOfTwo, ← Nat.and_sub_one_eq_zero_iff_isPowerOfTwo h0, ← h1, ← BitVec.toNat_and, isPowerOfTwo,
    decide_eq_true_iff, ← BitVec.toNat_inj]
  rfl

theorem isPowerOfTwo_eq_false (hn : n ≠ 0) : isPowerOfTwo n = false ↔ ∀ j, n.toNat ≠ 2 ^ j := by
  rw [← Bool.not_eq_true, isPowerOfTwo_iff hn, not_exists]

/-! ## The retry loop -/

/-- The retry loop answers the first accepted raw value, if one of its passes accepts (R242). -/
theorem retryLoop_eq_some {m : Nat} {g g' : Generator} {r : Word} :
    retryLoop P W n m g = .ok (some (r, g')) ↔
      ∃ k < m, ∃ v, firstAccepted P W n g k v g' ∧ r = rawValue W v % n := by
  simp only [firstAccepted_iff]
  induction m generalizing g with
  | zero => simp [retryLoop]
  | succ m ih =>
    simp only [retryLoop]
    cases hd : draw P g with
    | error f =>
      simp only [reduceCtorEq, false_iff]
      rintro ⟨k, -, v, ⟨h, -⟩, -⟩
      cases k <;> simp [drawNth, hd] at h
    | ok q =>
      obtain ⟨u, g1⟩ := q
      dsimp only
      by_cases ha : accepts W n (rawValue W u) = true
      · rw [if_pos ha]
        constructor
        · rintro h
          simp only [Except.ok.injEq, Option.some.injEq, Prod.mk.injEq] at h
          obtain ⟨rfl, rfl⟩ := h
          exact ⟨0, by omega, u, ⟨by simpa using hd, ha, by simp⟩, rfl⟩
        · rintro ⟨k, -, v, ⟨hk, -, hr⟩, rfl⟩
          cases k with
          | zero =>
            rw [drawNth_zero, hd] at hk
            simp only [Except.ok.injEq, Prod.mk.injEq] at hk
            obtain ⟨rfl, rfl⟩ := hk
            rfl
          | succ k =>
            obtain ⟨w, h, hw, hf⟩ := hr 0 (by omega)
            rw [drawNth_zero, hd] at hw
            simp only [Except.ok.injEq, Prod.mk.injEq] at hw
            obtain ⟨rfl, rfl⟩ := hw
            simp [ha] at hf
      · rw [if_neg ha, ih]
        have ha' : accepts W n (rawValue W u) = false := by simpa using ha
        constructor
        · rintro ⟨k, hk, v, ⟨h1, h2, h3⟩, rfl⟩
          refine ⟨k + 1, by omega, v, ⟨by rw [drawNth_succ_of_ok hd]; exact h1, h2, ?_⟩, rfl⟩
          intro j hj
          cases j with
          | zero => exact ⟨u, g1, by simpa using hd, ha'⟩
          | succ j => rw [drawNth_succ_of_ok hd]; exact h3 j (by omega)
        · rintro ⟨k, hk, v, ⟨h1, h2, h3⟩, rfl⟩
          cases k with
          | zero =>
            rw [drawNth_zero, hd] at h1
            simp only [Except.ok.injEq, Prod.mk.injEq] at h1
            obtain ⟨rfl, rfl⟩ := h1
            exact absurd h2 ha
          | succ k =>
            refine ⟨k, by omega, v, ⟨by rw [← drawNth_succ_of_ok hd]; exact h1, h2, ?_⟩, rfl⟩
            intro j hj
            obtain ⟨w, h, hw, hf⟩ := h3 (j + 1) (by omega)
            rw [drawNth_succ_of_ok hd] at hw
            exact ⟨w, h, hw, hf⟩

/-- The retry loop answers nothing exactly if each of its passes rejects (R242). -/
theorem retryLoop_eq_none {m : Nat} {g : Generator} :
    retryLoop P W n m g = .ok none ↔
      ∀ j < m, ∃ v g', drawNth P j g = .ok (v, g') ∧ accepts W n (rawValue W v) = false := by
  induction m generalizing g with
  | zero => simp [retryLoop]
  | succ m ih =>
    simp only [retryLoop]
    cases hd : draw P g with
    | error f =>
      simp only [reduceCtorEq, false_iff, not_forall]
      exact ⟨0, by omega, by simp [hd]⟩
    | ok q =>
      obtain ⟨u, g1⟩ := q
      dsimp only
      by_cases ha : accepts W n (rawValue W u) = true
      · rw [if_pos ha]
        simp only [Except.ok.injEq, reduceCtorEq, false_iff, not_forall]
        exact ⟨0, by omega, by simp [hd, ha]⟩
      · rw [if_neg ha, ih]
        have ha' : accepts W n (rawValue W u) = false := by simpa using ha
        constructor
        · intro h j hj
          cases j with
          | zero => exact ⟨u, g1, by simpa using hd, ha'⟩
          | succ j => rw [drawNth_succ_of_ok hd]; exact h j (by omega)
        · intro h j hj
          rw [← drawNth_succ_of_ok hd]
          exact h (j + 1) (by omega)

/-! ## The bound -/

theorem two_pow_split {a b c d e f : Nat} (h : a * b + c = d * e + f) :
    (2 ^ a) ^ b * 2 ^ c = (2 ^ d) ^ e * 2 ^ f := by
  rw [← Nat.pow_mul, ← Nat.pow_mul, ← Nat.pow_add, ← Nat.pow_add, h]

/-- The bound is the number of values `S` and `CUR` can take. -/
theorem passBound_eq : passBound = (2 ^ 64) ^ 312 * 2 ^ 9 := two_pow_split rfl

/-- `m` passes that all reject: the instance after them, if each draw succeeds and is rejected. -/
def rejectPasses (P : Config.Params) (W : Width) (n : Word) : Nat → Generator → Option Generator
  | 0, g => some g
  | m + 1, g =>
    match draw P g with
    | .ok (v, g') => if accepts W n (rawValue W v) then none else rejectPasses P W n m g'
    | .error _ => none

/-- Passes in a row are passes one after the other. -/
theorem rejectPasses_add (a b : Nat) (g : Generator) :
    rejectPasses P W n (a + b) g = (rejectPasses P W n a g).bind (rejectPasses P W n b) := by
  induction a generalizing g with
  | zero => simp [rejectPasses]
  | succ a ih =>
    rw [Nat.add_right_comm]
    simp only [rejectPasses]
    cases hd : draw P g with
    | error f => rfl
    | ok q =>
      dsimp only
      by_cases ha : accepts W n (rawValue W q.1) = true
      · simp [ha]
      · simp [ha, ih]

/-- Rejecting passes keep `ALG`. -/
theorem rejectPasses_alg {m : Nat} {g h : Generator} (hm : rejectPasses P W n m g = some h) : h.alg = g.alg := by
  induction m generalizing g with
  | zero => simp only [rejectPasses, Option.some.injEq] at hm; rw [hm]
  | succ m ih =>
    simp only [rejectPasses] at hm
    cases hd : draw P g with
    | error f => simp [hd] at hm
    | ok q =>
      simp only [hd] at hm
      split at hm
      · simp at hm
      · rw [ih hm, draw_alg hd]

/-- `m` passes all reject exactly if each of the first `m` draws succeeds and is rejected. -/
theorem rejectPasses_isSome {m : Nat} {g : Generator} :
    (rejectPasses P W n m g).isSome ↔
      ∀ j < m, ∃ v g', drawNth P j g = .ok (v, g') ∧ accepts W n (rawValue W v) = false := by
  rw [← retryLoop_eq_none]
  induction m generalizing g with
  | zero => simp [rejectPasses, retryLoop]
  | succ m ih =>
    simp only [rejectPasses, retryLoop]
    cases hd : draw P g with
    | error f => simp
    | ok q =>
      dsimp only
      by_cases ha : accepts W n (rawValue W q.1) = true
      · simp [ha]
      · simpa [ha] using ih

/-- Fewer passes of a row that all rejects reject too. -/
theorem rejectPasses_mono {a m : Nat} {g : Generator} (h : (rejectPasses P W n m g).isSome) (ha : a ≤ m) :
    (rejectPasses P W n a g).isSome := by
  rw [rejectPasses_isSome] at *
  exact fun j hj => h j (by omega)

/-- An instance that comes back to itself by rejecting passes rejects for ever. -/
theorem rejectPasses_of_cycle {d : Nat} {g : Generator} (hd : 0 < d) (h : rejectPasses P W n d g = some g) (m : Nat) :
    (rejectPasses P W n m g).isSome := by
  have hk : ∀ k, rejectPasses P W n (k * d) g = some g := by
    intro k
    induction k with
    | zero => simp [rejectPasses]
    | succ k ih => rw [Nat.succ_mul, rejectPasses_add, ih]; exact h
  exact rejectPasses_mono (by rw [hk m]; rfl) (Nat.le_mul_of_pos_right m hd)

/-- The values of `S` and `CUR` as a finite type with as many elements as `passBound` says. -/
def instanceCode (g : Generator) : (Fin 312 → Fin (2 ^ 64)) × Fin (2 ^ 9) :=
  (fun i => g.S[i].toFin, g.cur.toFin)

theorem card_instanceCode : Fintype.card ((Fin 312 → Fin (2 ^ 64)) × Fin (2 ^ 9)) = passBound := by
  rw [passBound_eq, Fintype.card_prod, Fintype.card_fun, Fintype.card_fin, Fintype.card_fin, Fintype.card_fin]

/-- `ALG` and the code tell two instances apart. -/
theorem eq_of_instanceCode {g h : Generator} (ha : g.alg = h.alg) (hc : instanceCode g = instanceCode h) : g = h := by
  obtain ⟨a, S, c⟩ := g
  obtain ⟨b, T, d⟩ := h
  simp only [instanceCode, Prod.mk.injEq] at hc
  obtain ⟨hS, hc⟩ := hc
  obtain rfl : a = b := ha
  obtain rfl : c = d := BitVec.eq_of_toFin_eq hc
  have : S = T := by
    apply Vector.ext
    intro i hi
    exact BitVec.eq_of_toFin_eq (congrFun hS ⟨i, hi⟩)
  rw [this]

/-- A loop that has rejected `passBound` raw values in a row has met one of its states twice, so it rejects for ever
(R247). -/
theorem rejects_forever {g : Generator} (h : (rejectPasses P W n passBound g).isSome) (m : Nat) :
    (rejectPasses P W n m g).isSome := by
  have hs : ∀ k : Fin (passBound + 1), ∃ x, rejectPasses P W n k.val g = some x := fun k =>
    Option.isSome_iff_exists.1 (rejectPasses_mono h (Nat.lt_succ_iff.1 k.isLt))
  choose x hx using hs
  obtain ⟨i, j, hne, he⟩ := Fintype.exists_ne_map_eq_of_card_lt (fun k => instanceCode (x k))
    (by rw [card_instanceCode, Fintype.card_fin]; exact Nat.lt_succ_self _)
  wlog hij : i.val < j.val generalizing i j
  · exact this j i hne.symm he.symm (by have := Fin.val_ne_of_ne hne; omega)
  have hxe : x i = x j :=
    eq_of_instanceCode (by rw [rejectPasses_alg (hx i), rejectPasses_alg (hx j)]) he
  have hc : rejectPasses P W n (j.val - i.val) (x i) = some (x i) := by
    have := hx j
    rw [show j.val = i.val + (j.val - i.val) by omega, rejectPasses_add, hx i] at this
    rw [hxe] at this ⊢
    exact this
  have hm := rejectPasses_of_cycle (by omega) hc m
  have : (rejectPasses P W n (i.val + m) g).isSome := by
    rw [rejectPasses_add, hx i]
    exact hm
  exact rejectPasses_mono this (by omega)

end Sys2Proof.Machine
end

