-- ==== Sys2Proof/Laws/Operands.lean ====
section
/-! SUPPORT. What rotations, the halves of a 128-bit value and the repeated steps can do, said once. -/

namespace Sys2Proof.Machine

/-! ## Rotations (R18) -/

/-- `rotl64` is the rotation of bit vectors. -/
theorem rotl64_eq_rotateLeft (a : Word) (k : Nat) (h : k < 64) : rotl64 a k = a.rotateLeft k := by
  unfold rotl64
  split
  · rename_i hk
    subst hk
    simp [BitVec.rotateLeft_def, BitVec.ushiftRight_eq_zero]
  · simp [BitVec.rotateLeft_def, Nat.mod_eq_of_lt h]

/-- `rotr64` is the rotation of bit vectors. -/
theorem rotr64_eq_rotateRight (a : Word) (k : Nat) (h : k < 64) : rotr64 a k = a.rotateRight k := by
  unfold rotr64
  split
  · rename_i hk; subst hk; simp [BitVec.rotateRight_def]
  · simp [BitVec.rotateRight_def, Nat.mod_eq_of_lt h]

/-! ## 128-bit values (R33, R232) -/

theorem loWord_toNat (x : DWord) : (loWord x).toNat = x.toNat % 2 ^ 64 := by simp [loWord]

theorem hiWord_toNat (x : DWord) : (hiWord x).toNat = x.toNat / 2 ^ 64 := by
  have := x.isLt
  simp only [hiWord, BitVec.extractLsb'_toNat, Nat.shiftRight_eq_div_pow]
  exact Nat.mod_eq_of_lt (by omega)

/-- The value of two words put together (R33). -/
theorem append_toNat (hi lo : Word) : (hi ++ lo : DWord).toNat = hi.toNat * 2 ^ 64 + lo.toNat := by
  rw [BitVec.toNat_append, ← Nat.shiftLeft_add_eq_or_of_lt lo.isLt, Nat.shiftLeft_eq]

/-- The update in exact integers (R232). The parameters stay as they are: evaluating 128-bit literals under `simp` or
`omega` is slow. -/
theorem pcgUpdate_toNat (P : Config.Params) (x : DWord) :
    (pcgUpdate P x).toNat = (x.toNat * P.pcgMul.toNat + P.pcgInc.toNat) % 2 ^ 128 := by
  rw [pcgUpdate, BitVec.toNat_add, BitVec.toNat_mul, Nat.mod_add_mod]

theorem hardware_pcgMul_toNat : hardware.pcgMul.toNat = 0x2360ED051FC65DA44385DF649FCCF645 := rfl

theorem hardware_pcgInc_toNat : hardware.pcgInc.toNat = 0x5851F42D4C957F2D14057B7EF767814F := rfl

/-! ## Mixing steps (R203) -/

/-- The last of `n + 1` steps taken out. -/
theorem repeatMix_succ_last (f : MixState → MixState) (n : Nat) (m : MixState) :
    repeatMix f (n + 1) m = f (repeatMix f n m) := by
  induction n generalizing m with
  | zero => rfl
  | succ n ih => rw [repeatMix, ih, repeatMix]

/-- The index before a word of the ring that is not word 0. -/
theorem sub_one_val (i : Fin 312) (h : i ≠ 0) : (i - 1).val = i.val - 1 := by
  have : i.val ≠ 0 := fun e => h (Fin.ext e)
  simp [Fin.sub_def]
  omega

/-- What one mixing step writes: its word, and word 0 when it wraps. -/
theorem mtAdvance_mixedAt (S : Words) (i : Fin 312) (hi : i ≠ 0) (v : Word) :
    mixedAt S (mtAdvance (S.set i v) i).1 i.val v := by
  have hi' : i.val ≠ 0 := fun e => hi (Fin.ext e)
  intro k hk
  unfold mtAdvance
  split
  · rename_i h
    subst h
    simp only [Vector.getElem_set]
    by_cases h0 : k = 0
    · subst h0; simp
    · by_cases h1 : k = 311
      · subst h1; simp
      · have h2 : ¬ (0 = k) := by omega
        simp [h0, h1, h2]
        omega
  · rename_i h
    have : i.val ≠ 311 := fun e => h (Fin.ext e)
    simp only [Vector.getElem_set]
    by_cases h1 : k = i.val
    · subst h1; simp
    · have : ¬ (i.val = k) := by omega
      simp [*]

/-- Where the index of a mixing step goes: 1 to 311 in turn. -/
theorem mtAdvance_index (S : Words) (i : Fin 312) (hi : i ≠ 0) (m : Nat) (e : i.val = 1 + m % 311) :
    (mtAdvance S i).2.val = 1 + (m + 1) % 311 := by
  unfold mtAdvance
  split
  · rename_i h
    subst h
    have : m % 311 = 310 := by simp at e; omega
    simp
    omega
  · rename_i h
    have : i.val ≠ 311 := fun e => h (Fin.ext e)
    have := i.isLt
    rw [Fin.val_add]
    simp
    omega

end Sys2Proof.Machine
end

