-- ==== Sys2Proof/Laws/Step.lean ====
section
/-! SUPPORT. What an instruction and a step can do, said once. -/

namespace Sys2Proof.Machine

/-! ## The sampler -/

/-- What `SAMPLE_W(n)` answers, if it answers a value: from one draw if the bound is a power of two, else from the first
accepted draw (R242). -/
theorem sample_eq_some {P : Config.Params} {W : Width} {n r : Word} {g g' : Generator} :
    sample P W n g = .ok (some (r, g')) ↔
      (isPowerOfTwo n = true ∧ ∃ v, draw P g = .ok (v, g') ∧ r = rawValue W v &&& (n - 1)) ∨
      (isPowerOfTwo n = false ∧ ∃ k < passBound, ∃ v, firstAccepted P W n g k v g' ∧ r = rawValue W v % n) := by
  unfold sample
  cases hp : isPowerOfTwo n with
  | true =>
    simp only [if_true, true_and, Bool.true_eq_false, false_and, or_false]
    cases hd : draw P g with
    | error f => simp
    | ok q =>
      obtain ⟨v, g1⟩ := q
      simp only [Except.ok.injEq, Option.some.injEq, Prod.mk.injEq]
      constructor
      · rintro ⟨rfl, rfl⟩; exact ⟨v, ⟨rfl, rfl⟩, rfl⟩
      · rintro ⟨w, ⟨rfl, rfl⟩, rfl⟩; exact ⟨rfl, rfl⟩
  | false =>
    simp only [Bool.false_eq_true, if_false, false_and, true_and, false_or]
    exact retryLoop_eq_some

/-- `SAMPLE_W(n)` answers no value only if the bound is no power of two and every raw value is rejected (R247). -/
theorem sample_eq_none {P : Config.Params} {W : Width} {n : Word} {g : Generator} :
    sample P W n g = .ok none ↔ isPowerOfTwo n = false ∧ (rejectPasses P W n passBound g).isSome := by
  unfold sample
  cases hp : isPowerOfTwo n with
  | true =>
    simp only [if_true, Bool.true_eq_false, false_and, iff_false]
    cases draw P g <;> simp
  | false =>
    simp only [Bool.false_eq_true, if_false, true_and]
    rw [rejectPasses_isSome, retryLoop_eq_none]

/-- What a sampler command with a legal bound can do: it responds with the value sampled, or it never ends. -/
theorem sampleCommand_cases {W : Width} {n : Word} {s t : State} (h : sampleCommand W n s = .next t) :
    (∃ v g, sample hardware W n s.gen = .ok (some (v, g)) ∧ t = (s.withGen g).respond v) ∨
    (sample hardware W n s.gen = .ok none ∧ t = { s with retrying := true }) := by
  unfold sampleCommand at h
  split at h
  · simp at h
  · rename_i v g hs
    exact .inl ⟨v, g, hs, (Host.Outcome.next.inj h).symm⟩
  · rename_i hs
    exact .inr ⟨hs, (Host.Outcome.next.inj h).symm⟩

/-- A sampler command whose loop accepts a raw value answers the first one accepted, whatever number of draws came
before it (R242, R247). -/
theorem sample_of_firstAccepted {P : Config.Params} {W : Width} {n v : Word} {k : Nat} {g g' : Generator}
    (hp : isPowerOfTwo n = false) (h : firstAccepted P W n g k v g') :
    sample P W n g = .ok (some (rawValue W v % n, g')) := by
  have h0 := h
  rw [firstAccepted_iff] at h
  refine sample_eq_some.2 (.inr ⟨hp, k, ?_, v, h0, rfl⟩)
  by_contra hk
  have h1 : (rejectPasses P W n passBound g).isSome := by
    rw [rejectPasses_isSome]
    exact fun j hj => h.2.2 j (by omega)
  have h2 := rejects_forever h1 (k + 1)
  rw [rejectPasses_isSome] at h2
  obtain ⟨u, g1, hu, ha⟩ := h2 k (by omega)
  rw [h.1] at hu
  simp only [Except.ok.injEq, Prod.mk.injEq] at hu
  obtain ⟨rfl, rfl⟩ := hu
  rw [h.2.1] at ha
  cases ha

/-- `UNIF64` with a legal bound is the sampler at width 64 (R243). -/
theorem exec_unif64_of_ne {n : Word} (s : State) (hn : n ≠ 0) :
    exec (.unif64 n) s = sampleCommand .w64 n s := if_neg hn

/-- `UNIF32` with a legal bound is the sampler at width 32 (R244). -/
theorem exec_unif32_of_le {n : Word} (s : State) (hn : n ≠ 0) (h : n.toNat ≤ 0xFFFFFFFF) :
    exec (.unif32 n) s = sampleCommand .w32 n s := if_neg (by rintro (e | e); exact hn e; omega)

/-- `UINTN` with a bound that fits 32 bits is the sampler at width 32 (R245). -/
theorem exec_uintn_of_le {n : Word} (s : State) (hn : n ≠ 0) (h : n.toNat ≤ 0xFFFFFFFF) :
    exec (.uintn n) s = sampleCommand .w32 n s := by
  show execUintn n s = _
  rw [execUintn, if_neg hn, if_pos h]

/-- `UINTN` with a bound that does not fit 32 bits is the sampler at width 64 (R245). -/
theorem exec_uintn_of_gt {n : Word} (s : State) (hn : n ≠ 0) (h : 0xFFFFFFFF < n.toNat) :
    exec (.uintn n) s = sampleCommand .w64 n s := by
  show execUintn n s = _
  rw [execUintn, if_neg hn, if_neg (by omega)]

/-- A sampler command answers the value sampled and leaves the instance after the draws (R243 to R245). -/
theorem sampleCommand_of_some {W : Width} {n v : Word} {s : State} {g : Generator}
    (h : sample hardware W n s.gen = .ok (some (v, g))) : sampleCommand W n s = .next ((s.withGen g).respond v) := by
  simp only [sampleCommand, h]

/-- `NEXT` answers the value drawn and leaves the instance after the draw (R114). -/
theorem execNext_of_draw {s : State} {v : Word} {g : Generator} (h : draw hardware s.gen = .ok (v, g)) :
    exec .next s = .next ((s.withGen g).respond v) := by
  simp only [exec, execNext, h]

/-! ## Every instruction -/

/-- What an instruction can do if it answers a next state: it takes effect on the instance and responds `OK`, or it
raises one fault and leaves everything else (R273), or, a sampler command only, it never ends (R247). -/
theorem exec_cases {i : Instr} {s t : State} (h : exec i s = .next t) :
    (∃ g v, t = (s.withGen g).respond v) ∨
    (∃ f, f ≠ .ok ∧ t = s.raise f) ∨
    ((∃ W n, sample hardware W n s.gen = .ok none) ∧ t = { s with retrying := true }) := by
  have hsample : ∀ W n, sampleCommand W n s = .next t →
      (∃ g v, t = (s.withGen g).respond v) ∨ (∃ f, f ≠ .ok ∧ t = s.raise f) ∨
      ((∃ W n, sample hardware W n s.gen = .ok none) ∧ t = { s with retrying := true }) := by
    intro W n hs
    rcases sampleCommand_cases hs with ⟨v, g, -, rfl⟩ | ⟨hn, rfl⟩
    · exact .inl ⟨g, v, rfl⟩
    · exact .inr (.inr ⟨⟨W, n, hn⟩, rfl⟩)
  cases i with
  | select a =>
    simp only [exec, execSelect] at h
    split at h
    · exact .inl ⟨_, _, (Host.Outcome.next.inj h).symm⟩
    · exact .inr (.inl ⟨_, by simp, (Host.Outcome.next.inj h).symm⟩)
  | seed x => exact .inl ⟨_, _, (Host.Outcome.next.inj h).symm⟩
  | seedv ws =>
    simp only [exec, execSeedv] at h
    split at h
    · exact .inl ⟨_, _, (Host.Outcome.next.inj h).symm⟩
    · exact .inr (.inl ⟨_, by simp, (Host.Outcome.next.inj h).symm⟩)
  | next =>
    simp only [exec, execNext] at h
    split at h
    · exact .inl ⟨_, _, (Host.Outcome.next.inj h).symm⟩
    · simp at h
  | unif64 n =>
    simp only [exec, execUnif64] at h
    split at h
    · exact .inr (.inl ⟨_, by simp, (Host.Outcome.next.inj h).symm⟩)
    · exact hsample _ _ h
  | unif32 n =>
    simp only [exec, execUnif32] at h
    split at h
    · exact .inr (.inl ⟨_, by simp, (Host.Outcome.next.inj h).symm⟩)
    · exact hsample _ _ h
  | uintn n =>
    simp only [exec, execUintn] at h
    split at h
    · exact .inr (.inl ⟨_, by simp, (Host.Outcome.next.inj h).symm⟩)
    · split at h <;> exact hsample _ _ h

/-- No instruction is refused. -/
theorem exec_not_refused (i : Instr) (s : State) (r : Refusal) : exec i s ≠ .refused r := by
  have hsample : ∀ W n, sampleCommand W n s ≠ .refused r := by
    intro W n
    unfold sampleCommand
    split <;> simp
  cases i <;> simp only [exec, execSelect, execSeed, execSeedv, execNext, execUnif64, execUnif32, execUintn]
  case seed => simp
  case select => split <;> simp
  case seedv => split <;> simp
  case next => split <;> simp
  case unif64 => split
                 · simp
                 · exact hsample _ _
  case unif32 => split
                 · simp
                 · exact hsample _ _
  case uintn => split
                · simp
                · split <;> exact hsample _ _

/-! ## A step -/

/-- A step with no reset arriving and no endless command in progress is the command cycle (R110). -/
theorem step_of_ready {s : State} (hr : s.retrying = false) (ha : ∀ ahead, portTail s.port ≠ .reset 0 :: ahead) :
    step s = match decode (visibleWords s) with
      | .ok (i, rest) => exec i (consumeCommand s rest)
      | .error (.illegal why rest) => .next ((consumeCommand s rest).raise (illegalStatus why))
      | .error .incomplete => .next (awaitWords s) := by
  rw [step, resetArrives_eq_false.2 ha, hr]
  rfl

/-- What a step can do if it answers a next state: a reset arrives or the block goes on retrying, it runs a command, it
answers an illegal header, or it waits for words or takes a reset (R110, R301). -/
theorem step_cases {s t : State} (h : step s = .next t) :
    ((resetArrives s = true ∨ s.retrying = true) ∧ t = takeReset s) ∨
    (resetArrives s = false ∧ s.retrying = false ∧ ∃ i rest, decode (visibleWords s) = .ok (i, rest) ∧
      exec i (consumeCommand s rest) = .next t) ∨
    (resetArrives s = false ∧ s.retrying = false ∧ ∃ why rest, decode (visibleWords s) = .error (.illegal why rest) ∧
      t = (consumeCommand s rest).raise (illegalStatus why)) ∨
    (resetArrives s = false ∧ s.retrying = false ∧ decode (visibleWords s) = .error .incomplete ∧ t = awaitWords s) := by
  unfold step at h
  split at h
  · rename_i hr
    exact .inl ⟨by simpa using hr, (Host.Outcome.next.inj h).symm⟩
  · rename_i hr
    obtain ⟨ha, hr⟩ : resetArrives s = false ∧ s.retrying = false := by simpa using hr
    split at h
    · rename_i i rest hd
      exact .inr (.inl ⟨ha, hr, i, rest, hd, h⟩)
    · rename_i why rest hd
      exact .inr (.inr (.inl ⟨ha, hr, why, rest, hd, (Host.Outcome.next.inj h).symm⟩))
    · rename_i hd
      exact .inr (.inr (.inr ⟨ha, hr, hd, (Host.Outcome.next.inj h).symm⟩))

/-- A reset, said once: nothing changes without one, and with one everything takes its reset value. -/
theorem takeReset_cases (s : State) :
    (portTail s.port = [] ∧ takeReset s = s) ∨
    ∃ k ahead, portTail s.port = .reset k :: ahead ∧ takeReset s = afterReset ahead := by
  rcases portTail_cases s.port with h | ⟨k, ahead, h⟩
  · exact .inl ⟨h, takeReset_of_nil h⟩
  · exact .inr ⟨k, ahead, h, takeReset_of_tail h⟩

/-- Waiting, said once: with no reset ahead the block holds every word sent; with one, everything is reset. -/
theorem awaitWords_cases (s : State) :
    (portTail s.port = [] ∧ awaitWords s = { s with asm := visibleWords s, port := [] }) ∨
    ∃ k ahead, portTail s.port = .reset k :: ahead ∧ awaitWords s = afterReset ahead := by
  rcases portTail_cases s.port with h | ⟨k, ahead, h⟩
  · exact .inl ⟨h, by simp only [awaitWords, h]⟩
  · exact .inr ⟨k, ahead, h, by simp only [awaitWords, h, takeReset_of_tail h]⟩

end Sys2Proof.Machine
end

