-- ==== Sys2Proof/Laws/PerInstr.lean ====
section
/-! SUPPORT. What is true of each instruction as syntax, one lemma per constructor. -/

namespace Sys2Proof.Laws.Framed

/-- A well-formed instruction is encoded as a header and exactly the payload words that header asks for (R83, R84). -/
def Statement (i : Instr) : Prop :=
  i.wellFormed = true → ∃ h p, encode i = h :: p ∧ p.length = payloadCount h

theorem select (algf : BitVec 4) : Statement (.select algf) := fun _ => ⟨_, _, rfl, by simp [payloadCount]⟩
theorem seed (s : Word) : Statement (.seed s) := fun _ => ⟨_, _, rfl, by simp [payloadCount]⟩
theorem seedv (words : List Word) : Statement (.seedv words) := fun hw =>
  ⟨_, _, rfl, by
    have : words.length ≤ 65535 := of_decide_eq_true hw
    simp [payloadCount]
    omega⟩
theorem next : Statement .next := fun _ => ⟨_, _, rfl, by simp [payloadCount]⟩
theorem unif64 (n : Word) : Statement (.unif64 n) := fun _ => ⟨_, _, rfl, by simp [payloadCount]⟩
theorem unif32 (n : Word) : Statement (.unif32 n) := fun _ => ⟨_, _, rfl, by simp [payloadCount]⟩
theorem uintn (n : Word) : Statement (.uintn n) := fun _ => ⟨_, _, rfl, by simp [payloadCount]⟩

end Sys2Proof.Laws.Framed
end

