-- ==== Sys2Proof/Machine/Assembly.lean ====
section
/-! DEFINITION. The text this spec writes for commands and responses (spec/30_encoding.md R93). Numbers are written in
decimal in a command, and in hexadecimal in a response. -/

namespace Sys2Proof.Machine

/-- The mnemonic of an algorithm (spec/10_state.md R32). -/
def algMnemonic : Alg → String
  | .sm64 => "SM64"
  | .xs64s => "XS64S"
  | .xs128p => "XS128P"
  | .xs1024s => "XS1024S"
  | .xo128p => "XO128P"
  | .xo128ss => "XO128SS"
  | .xo256p => "XO256P"
  | .xo256ss => "XO256SS"
  | .mt64 => "MT64"
  | .pcg => "PCG"

/-- A decimal number. -/
def decimal (n : Nat) : String := String.ofList (Nat.toDigits 10 n)

/-- The text of an algorithm number (R85): its mnemonic, or the number itself if it is reserved. -/
def algText (algf : BitVec 4) : String :=
  match algOfNumber algf with
  | some a => algMnemonic a
  | none => decimal algf.toNat

/-- The text of a command (R93). -/
def asmText : Instr → String
  | .select algf => "SELECT " ++ algText algf
  | .seed s => "SEED " ++ decimal s.toNat
  | .seedv words => "SEEDV [" ++ ", ".intercalate (words.map fun w => decimal w.toNat) ++ "]"
  | .next => "NEXT"
  | .unif64 n => "UNIF64 " ++ decimal n.toNat
  | .unif32 n => "UNIF32 " ++ decimal n.toNat
  | .uintn n => "UINTN " ++ decimal n.toNat

/-- The name of a status (R90). -/
def statusName : Status → String
  | .ok => "OK"
  | .illegalOpcode => "ILLEGAL_OPCODE"
  | .illegalField => "ILLEGAL_FIELD"
  | .algReserved => "ALG_RESERVED"
  | .seedvUnsupported => "SEEDV_UNSUPPORTED"
  | .badBound => "BAD_BOUND"

/-- The text of a response (R93). -/
def responseText (r : Response) : String :=
  match r.st with
  | .ok => "-> OK 0x" ++ String.ofList (Nat.toDigits 16 r.data.toNat)
  | st => "-> " ++ statusName st

end Sys2Proof.Machine
end

