-- ==== Sys2Proof/Tests/Slice0.lean ====
section
/-! SUPPORT. The model's own tests. Expected values are the spec's: known answers V1 of spec/95_test_vectors.md, the worked
examples that stand in the rules, and the programs P1 to P8. The witnesses at the end show that the hypotheses of each
statement of Certificates/Slice0/Obligations.lean can be met. -/

namespace Sys2Proof.Tests

-- One test after the other: with each on a thread of its own, the threads' stacks take more memory than the tests.
set_option Elab.async false

open Sys2Proof.Machine

/-! ## Helpers -/

/-- An instance with some leading words and a cursor. -/
def inst (a : Alg) (ws : List Word) (cur : BitVec 9) : Generator :=
  { alg := a, S := writeWords (Vector.replicate 312 0) 0 ws, cur := cur }

/-- An idle block that holds an instance. -/
def holding (g : Generator) : State := State.reset.withGen g

/-- One step of an idle block that holds an instance and has been sent words. -/
def run1 (g : Generator) (ws : List Word) : Host.Outcome State Fault Refusal := step ((holding g).send ws)

/-- The responses after a step. -/
def outOf : Host.Outcome State Fault Refusal → List Response
  | .next t => t.out
  | .fault _ => []
  | .refused _ => []

/-- Some words of the state array after a step, and the cursor. -/
def wordsOf : Host.Outcome State Fault Refusal → List (Fin 312) → List Word × Nat
  | .next t, is => (is.map fun i => t.gen.S[i], t.gen.cur.toNat)
  | .fault _, _ => ([], 0)
  | .refused _, _ => ([], 0)

/-- A value drawn and some words of the state array after it. -/
def drawn : Except Fault (Word × Generator) → List (Fin 312) → List Word
  | .ok (v, g), is => v :: is.map fun i => g.S[i]
  | .error _, _ => []

/-! ## WellFormed -/

/-- One word more than `SLICE_LEN_MAX` cannot be sent (R11). -/
theorem test_wellFormed_refuses_long_slice : (Instr.seedv (List.replicate 65536 0)).wellFormed = false := by
  simp only [Instr.wellFormed, List.length_replicate, Config.sliceLenMax]
  decide

theorem test_wellFormed_longest_slice : (Instr.seedv (List.replicate 65535 0)).wellFormed = true := by
  simp only [Instr.wellFormed, List.length_replicate, Config.sliceLenMax]
  decide

/-! ## Decoding: words written out from R81 and R84 -/

theorem test_decode_select : decode [0x0180000000000000] = .ok (.select 8, []) := by decide
theorem test_decode_seed : decode [0x0200000000000000, 0x00000143057C850E] = .ok (.seed 1387366483214, []) := by decide
theorem test_decode_seedv :
    decode [0x0300000000000004, 0x12345, 0x23456, 0x34567, 0x45678] =
      .ok (.seedv [0x12345, 0x23456, 0x34567, 0x45678], []) := by decide
theorem test_decode_seedv_empty : decode [0x0300000000000000, 0x0400000000000000] = .ok (.seedv [], [0x0400000000000000]) := by
  decide
theorem test_decode_next : decode [0x0400000000000000] = .ok (.next, []) := by decide
theorem test_decode_unif64 : decode [0x0500000000000000, 0xA] = .ok (.unif64 10, []) := by decide
theorem test_decode_unif32 : decode [0x0600000000000000, 0x6] = .ok (.unif32 6, []) := by decide
theorem test_decode_uintn : decode [0x0700000000000000, 0x100000000] = .ok (.uintn 0x100000000, []) := by decide

/-- R88 a, at both ends of the reserved range. -/
theorem test_decode_illegal_opcode :
    decode [0] = .error (.illegal .illegalOpcode []) ∧
    decode [0x0800000000000000] = .error (.illegal .illegalOpcode []) ∧
    decode [0xFF00000000000001, 7] = .error (.illegal .illegalOpcode [7]) := by decide

/-- R88 b and the priorities of R272. -/
theorem test_decode_illegal_field :
    decode [0x01A0000000010000] = .error (.illegal .illegalField []) ∧
    decode [0x0300000000100002, 1, 2, 3] = .error (.illegal .illegalField [3]) ∧
    decode [0x0610000000000000, 0] = .error (.illegal .illegalField []) ∧
    decode [0x0400000000000001, 5] = .error (.illegal .illegalField [5]) := by decide

/-- R110 step 1: a payload word is missing. -/
theorem test_decode_incomplete :
    decode [] = .error .incomplete ∧ decode [0x0200000000000000] = .error .incomplete ∧
    decode [0x0300000000000002, 1] = .error .incomplete := by decide

/-- The words of a row, its payload words zero. -/
theorem test_decodeTableWord :
    decodeTableWord 64 0x0130000000000000 = some (.select 3) ∧
    decodeTableWord 64 0x0300000000000002 = some (.seedv [0, 0]) ∧
    decodeTableWord 64 0x0700000000000000 = some (.uintn 0) ∧
    decodeTableWord 64 0x0900000000000000 = none := by decide

theorem test_encode_is_the_words :
    encode (.seedv [5, 6]) = [0x0300000000000002, 5, 6] ∧ encode (.select 9) = [0x0190000000000000] ∧
    encode (.uintn 7) = [0x0700000000000000, 7] := by decide

/-- The loaded instruction is the first one that runs. -/
theorem test_withFetchWord :
    outOf (step (State.reset.withFetchWord 64 0x0400000000000000)) = [⟨.ok, 0xE220A8397B1DCDAF⟩] ∧
    outOf (step (State.reset.withFetchWord 64 0x0600000000000000)) = [⟨.badBound, 0⟩] := by decide

/-! ## One step of each command -/

/-- R111: `SELECT MT64`. -/
theorem test_select_mt64 :
    wordsOf (run1 (inst .xo128p [1, 2] 0) [0x0180000000000000]) [0, 1] = ([0, 0], 313) ∧
    outOf (run1 (inst .xo128p [1, 2] 0) [0x0180000000000000]) = [⟨.ok, 0⟩] := by decide +kernel

/-- P4, command 7: the instance survives. -/
theorem test_select_reserved :
    run1 (inst .xo128p [1, 2] 0) [0x01C0000000000000] =
      .next { holding (inst .xo128p [1, 2] 0) with out := [⟨.algReserved, 0⟩] } := rfl

/-- R112, R151. -/
theorem test_seed_sm64 :
    wordsOf (run1 (inst .sm64 [9] 0) [0x0200000000000000, 0x00000143057C850E]) [0, 1] = ([0x00000143057C850E, 0], 0) := by decide +kernel

/-- R161: `SEED 0` with XS64S is remapped, and R180: with XO128P it is not. -/
theorem test_seed_zero :
    wordsOf (run1 (inst .xs64s [] 0) [0x0200000000000000, 0]) [0, 1] = ([0x6E789E6AA1B965F4, 0], 0) ∧
    wordsOf (run1 (inst .xo128p [] 0) [0x0200000000000000, 0]) [0, 1, 2] =
      ([0xE220A8397B1DCDAF, 0x6E789E6AA1B965F4, 0], 0) := by decide +kernel

/-- R162: two words copied, fourteen filled, the cursor back at 0. -/
theorem test_seedv_xs1024s :
    wordsOf (run1 (inst .xs1024s [] 7) [0x0300000000000002, 0xAAAA, 0xBBBB]) [0, 1, 2, 3, 15, 16] =
      ([0xAAAA, 0xBBBB, 0xE27067784BE6BA8C, 0x2FA7FFDB3564577D, 0x1CC20CA77DA01C7C, 0], 0) := by decide +kernel

/-- P4, command 4: the payload is consumed and nothing else changes. -/
theorem test_seedv_unsupported :
    run1 (inst .xo256ss [1, 2, 3, 4] 0) [0x0300000000000002, 1, 2] =
      .next { holding (inst .xo256ss [1, 2, 3, 4] 0) with out := [⟨.seedvUnsupported, 0⟩] } := rfl

/-- V1, first draw, and its state. -/
theorem test_next_sm64 :
    outOf (run1 (inst .sm64 [0x00000143057C850E] 0) [0x0400000000000000]) = [⟨.ok, 0xDDE04155BF79DF63⟩] ∧
    wordsOf (run1 (inst .sm64 [1] 0) [0x0400000000000000]) [0] = ([0x9E3779B97F4A7C16], 0) := by decide +kernel

/-- R165, the wrap from 15 to 0. -/
theorem test_next_xs1024s_wraps :
    wordsOf (run1 (inst .xs1024s [1, 2, 3, 4, 5, 6, 7, 8, 9, 10, 11, 12, 13, 14, 15, 16] 15) [0x0400000000000000])
      [0, 1, 15] = ([0x0000000080100011, 2, 16], 0) ∧
    outOf (run1 (inst .xs1024s [1, 2, 3, 4, 5, 6, 7, 8, 9, 10, 11, 12, 13, 14, 15, 16] 15) [0x0400000000000000]) =
      [⟨.ok, 0xDE606F73F967D905⟩] := by decide +kernel

/-- R243, and P5: three raw draws are rejected before the fourth is accepted. -/
theorem test_unif64 :
    outOf (run1 (inst .sm64 [1] 0) [0x0500000000000000, 10]) = [⟨.ok, 5⟩] ∧
    outOf (run1 (inst .sm64 [1] 0) [0x0500000000000000, 8]) = [⟨.ok, 1⟩] := by decide +kernel
theorem test_unif64_retries :
    outOf (run1 (inst .sm64 [1] 0) [0x0500000000000000, 0x8000000000000001]) = [⟨.ok, 0x71C18690EE42C90B⟩] ∧
    wordsOf (run1 (inst .sm64 [1] 0) [0x0500000000000000, 0x8000000000000001]) [0] = ([0x78DDE6E5FD29F055], 0) := by decide +kernel

/-- R244, with the bounds it refuses. -/
theorem test_unif32 :
    outOf (run1 (inst .sm64 [1] 0) [0x0600000000000000, 6]) = [⟨.ok, 4⟩] ∧
    outOf (run1 (inst .sm64 [1] 0) [0x0600000000000000, 0x100000000]) = [⟨.badBound, 0⟩] := by decide +kernel

/-- R245, on either side of `2^32`. -/
theorem test_uintn :
    outOf (run1 (inst .sm64 [1] 0) [0x0700000000000000, 0xFFFFFFFF]) = [⟨.ok, 0x910A2DEC⟩] ∧
    outOf (run1 (inst .sm64 [1] 0) [0x0700000000000000, 0x100000000]) = [⟨.ok, 0x89025CC1⟩] ∧
    outOf (run1 (inst .sm64 [1] 0) [0x0700000000000000, 0x100000001]) = [⟨.ok, 0xF7F82ED6⟩] := by decide +kernel

/-- R301: a reset in the middle of a command; the next word is a header. -/
theorem test_reset_in_assembly :
    step { State.reset with asm := [0x0200000000000000], port := [.reset 3, .word 0x0400000000000000] } =
      .next { State.reset with port := [.word 0x0400000000000000] } := rfl

/-- R301: a reset while the second of two commands executes: the first is finished, the second gives no response, and the
words behind it are gone. -/
theorem test_reset_in_execution :
    (Host.Core.run core 1 ((State.reset.send [0x0190000000000000, 0x0400000000000000, 0x0400000000000000]).pulseReset 1) =
      .next ((((State.reset.withGen (freshGenerator .pcg)).respond 0).send
        [0x0400000000000000, 0x0400000000000000]).pulseReset 0)) ∧
    Host.Core.run core 2 ((State.reset.send [0x0190000000000000, 0x0400000000000000, 0x0400000000000000]).pulseReset 1) =
      .next State.reset := ⟨rfl, rfl⟩

/-! ## The operations of the generators -/

theorem test_expansion :
    expandScalar 1 2 = [0x910A2DEC89025CC1, 0xBEEB8DA1658EEC67] ∧
    expandSlice [7] 3 = [7, 0x63CBE1E459320DD7, 0x044C3CD7F43C661C] ∧ expandSlice [5, 6, 7] 2 = [5, 6] ∧
    expandSlice [] 2 = [0xE220A8397B1DCDAF, 0x6E789E6AA1B965F4] := by decide +kernel

/-- R163 and R164, the latter with both shift pairs. -/
theorem test_draw_xorshift :
    drawn (draw hardware (inst .xs64s [1] 0)) [0] = [0x47E4CE4B896CDD1D, 0x2000001] ∧
    drawn (draw hardware (inst .xs128p [1, 2] 0)) [0, 1] = [3, 2, 0x1000083] ∧
    drawn (draw hardware (inst .xs128p [2, 0x1000083] 0)) [0, 1] = [0x1000085, 0x1000083, 0x00008000008020C1] ∧
    drawn (draw { hardware with xs128pShiftA := 18, xs128pShiftB := 5 } (inst .xs128p [1, 2] 0)) [0, 1] =
      [3, 2, 0x1000043] := by decide +kernel

/-- R183 to R186. -/
theorem test_draw_xoroshiro :
    drawn (draw hardware (inst .xo128p [1, 2] 0)) [0, 1] = [3, 0x1030003, 0x6000000000] ∧
    drawn (draw hardware (inst .xo128ss [1, 2] 0)) [0, 1] = [0x2D00, 0x1030003, 0x6000000000] ∧
    drawn (draw hardware (inst .xo256p [1, 2, 3, 4] 0)) [0, 1, 2, 3] = [5, 7, 0, 0x40002, 0xC00000000000] ∧
    drawn (draw hardware (inst .xo256ss [1, 2, 3, 4] 0)) [0, 1, 2, 3] = [0x2D00, 7, 0, 0x40002, 0xC00000000000] := by decide +kernel

/-- R232. -/
theorem test_draw_pcg :
    drawn (draw hardware (inst .pcg [] 0)) [] = [0xCBF98931523D4EEF] ∧
    drawn (draw hardware (inst .pcg [1, 0] 0)) [0, 1] = [0xEDBEAD14B0E6EF47, 0x578B5AE397347794, 0x7BB2E1326C5BDCD1] ∧
    drawn (draw hardware (inst .pcg [0, 1] 0)) [0, 1] = [0xBC6C17D0F63F4AA3, 0x14057B7EF767814F, 0x9BD7D391EC627572] := by decide +kernel

/-- R202, R205: the first words of the fill from seed 1, and tempering. A whole fill or twist is too long for a test; the
compiled model was run on V2 (see NOTES.md). -/
theorem test_mersenne_words :
    (forWords mtFillAt 3 1 ((Vector.replicate 312 0).set 0 1))[1] = 0x5851F42D4C957F2E ∧
    (forWords mtFillAt 3 1 ((Vector.replicate 312 0).set 0 1))[3] = 0x8C6783158E6F8324 ∧
    mtTemper 1 = 0x0040002000020801 ∧ mtTemper 0x8000000000000000 = 0x8000000400100000 ∧
    mtTemper 0xFFFFFFFFFFFFFFFF = 0x7BFEEEEFEFA1D577 ∧ mtTemper 0x0123456789ABCDEF = 0x2254DA7001198660 := by decide +kernel

/-- R206: an instance whose buffer is ready, at the last word; `CUR` becomes 312. -/
theorem test_draw_mt64_last_word :
    wordsOf (run1 { inst .mt64 [] 311 with S := (Vector.replicate 312 0).set 311 1 } [0x0400000000000000]) [311] =
      ([1], 312) ∧
    outOf (run1 { inst .mt64 [] 311 with S := (Vector.replicate 312 0).set 311 1 } [0x0400000000000000]) =
      [⟨.ok, 0x0040002000020801⟩] := by decide +kernel

/-- R241. -/
theorem test_threshold :
    threshold .w64 10 = 0xFFFFFFFFFFFFFFF9 ∧ threshold .w64 3 = 0xFFFFFFFFFFFFFFFE ∧
    threshold .w64 (2 ^ 63 + 1) = 0x8000000000000000 ∧ threshold .w64 (2 ^ 64 - 1) = 0xFFFFFFFFFFFFFFFE ∧
    threshold .w32 6 = 0xFFFFFFFB ∧ threshold .w32 1000 = 0xFFFFFED7 ∧ threshold .w32 (2 ^ 31 + 1) = 0x80000000 := by decide +kernel

/-- Rotations: section 2.1 of spec/95_test_vectors.md. -/
theorem test_rotations :
    rotl64 0x0123456789ABCDEF 24 = 0x6789ABCDEF012345 ∧ rotr64 0x0123456789ABCDEF 0 = 0x0123456789ABCDEF ∧
    rotr64 0x0123456789ABCDEF 63 = 0x02468ACF13579BDE ∧ rotl64 0x8000000000000001 1 = 3 := by decide +kernel

theorem test_hardware_legal : hardware.Legal := by decide +kernel

theorem test_status_codes :
    [statusCode .ok, statusCode .illegalOpcode, statusCode .illegalField, statusCode .algReserved,
      statusCode .seedvUnsupported, statusCode .badBound] = [0, 1, 2, 3, 4, 5] := by decide +kernel

/-- P6 and R254. -/
theorem test_uperm : uperm [0, 0, 2, 1] = [1, 3, 2, 0] := by decide +kernel

/-- R256: 3 bytes of one draw. -/
theorem test_bulk_bytes : bulkBytes 3 [0xDDE04155BF79DF63] = [0x63, 0xDF, 0x79] := by decide +kernel

/-- R93. -/
theorem test_assembly :
    asmText (.select 8) = "SELECT MT64" ∧ asmText (.select 12) = "SELECT 12" ∧ asmText (.seedv [5, 6]) = "SEEDV [5, 6]" ∧
    responseText ⟨.badBound, 0⟩ = "-> BAD_BOUND" := by decide +kernel

/-! ## Witnesses: states and operands that meet the hypotheses of the statements

`witness_<Name>` belongs to `Obligations.<Name>`; where a statement has several clauses there is a witness for each, at
boundary values. -/

/-- An instance with words in the prefix only, and a legal cursor, has the invariant. -/
theorem inst_inv (a : Alg) (ws : List Word) (c : BitVec 9) (hw : ws.length ≤ stateWords a)
    (hc : cursorLegal (inst a ws c)) : (inst a ws c).inv := by
  refine ⟨fun i hi hn => ?_, hc⟩
  have : (inst a ws c).S[i] = (Vector.replicate 312 (0 : Word))[i] := writeWords_zero_ge _ _ _ _ (by
    have : stateWords a ≤ i := hn
    omega)
  rw [this, Vector.getElem_replicate]

/-- An idle block with such an instance has the machine's invariant. -/
theorem holding_inv {g : Generator} (h : g.inv) : (holding g).inv := ⟨h, rfl⟩

theorem xs64s_inv (w : Word) : (inst .xs64s [w] 0).inv := inst_inv _ _ _ (by simp [stateWords]) rfl
theorem sm64_inv (w : Word) : (inst .sm64 [w] 0).inv := inst_inv _ _ _ (by simp [stateWords]) rfl
theorem xs1024s_inv (w : Word) : (inst .xs1024s [w] 15).inv :=
  inst_inv _ _ _ (by simp [stateWords]) (by show (15 : BitVec 9).toNat ≤ 15; decide)

theorem witness_DecodeOfEncode :
    (Instr.seedv (List.replicate 65535 0)).wellFormed = true ∧ (Instr.select 15).wellFormed = true :=
  ⟨test_wellFormed_longest_slice, rfl⟩

theorem witness_EncodeOfDecode :
    decode [0x0300000000000001, 7, 8] = .ok (.seedv [7], [8]) ∧ decode [0x01F0000000000000] = .ok (.select 15, []) := by
  decide

theorem witness_EveryHeaderHasOneClass :
    ([] : List Word).length = payloadCount 0 ∧ [(5 : Word)].length = payloadCount 0x0700000000000001 ∧
    (List.replicate 65535 (0 : Word)).length = payloadCount 0x030000000000FFFF := by
  rw [List.length_replicate]
  decide

theorem witness_StepRunsTheDecodedCommand :
    ((holding (inst .sm64 [1] 0)).send [0x0400000000000000]).retrying = false ∧
    portTail ((holding (inst .sm64 [1] 0)).send [0x0400000000000000]).port = [] ∧
    decode (((holding (inst .sm64 [1] 0)).send [0x0400000000000000]).asm ++
      portWords ((holding (inst .sm64 [1] 0)).send [0x0400000000000000]).port) = .ok (.next, []) := by decide +kernel

/-- The words a block sees of a header without payload, with no reset at the inputs. -/
theorem witness_IllegalHeaderIsAnswered_words (h : Word) :
    (State.reset.send [h, 9]).retrying = false ∧ (∀ ahead, portTail (State.reset.send [h, 9]).port ≠ .reset 0 :: ahead) ∧
    (State.reset.send [h, 9]).asm ++ portWords (State.reset.send [h, 9]).port = h :: ([] ++ [9]) :=
  ⟨rfl, fun _ => List.cons_ne_nil _ _ ∘ Eq.symm, rfl⟩

/-- The first clause, at the ends of the reserved opcodes. -/
theorem witness_IllegalHeaderIsAnswered_opcode :
    (payloadCount 0x0000000000000000 = 0 ∧ opcOf 0x0000000000000000 = 0) ∧
    (payloadCount 0x0800000000000000 = 0 ∧ 8 ≤ (opcOf 0x0800000000000000).toNat) ∧
    (payloadCount 0xFF00000000000000 = 0 ∧ 8 ≤ (opcOf 0xFF00000000000000).toNat) := by decide

/-- The second clause, at the first and the last opcode, once for each field. -/
theorem witness_IllegalHeaderIsAnswered_field :
    (payloadCount 0x0100000000000001 = 0 ∧ (opcOf 0x0100000000000001).toNat = 1 ∧
      lenOf 0x0100000000000001 ≠ 0 ∧ opcOf 0x0100000000000001 ≠ 3) ∧
    (payloadCount 0x0710000000000000 = 1 ∧ (opcOf 0x0710000000000000).toNat = 7 ∧
      algfOf 0x0710000000000000 ≠ 0 ∧ opcOf 0x0710000000000000 ≠ 1) ∧
    (payloadCount 0x0708000000000000 = 1 ∧ (opcOf 0x0708000000000000).toNat = 7 ∧ rsvOf 0x0708000000000000 ≠ 0) := by
  decide

theorem witness_WaitsForTheWholeCommand :
    (State.reset.send [0x0200000000000000]).retrying = false ∧
    decode ((State.reset.send [0x0200000000000000]).asm ++ portWords (State.reset.send [0x0200000000000000]).port) =
      .error .incomplete ∧
    portTail (State.reset.send [0x0200000000000000]).port = [] := by decide

/-- A whole command that a reset overtakes; a command being assembled; a command that never ends. -/
theorem witness_ResetAbandonsTheCommand :
    portTail ((State.reset.send [0x0400000000000000]).pulseReset 0).port = .reset 0 :: [] ∧
    (portTail ((State.reset.send [0x0200000000000000]).pulseReset 5).port = .reset 5 :: [] ∧
      decode (((State.reset.send [0x0200000000000000]).pulseReset 5).asm ++
        portWords ((State.reset.send [0x0200000000000000]).pulseReset 5).port) = .error .incomplete) ∧
    (({ State.reset.pulseReset 1 with retrying := true } : State).retrying = true ∧
      portTail ({ State.reset.pulseReset 1 with retrying := true } : State).port = .reset 1 :: []) := by decide

/-- Also for `CommandStreamRunsInOrder`. -/
theorem witness_ResetOvertakesTheWordsSent :
    idle State.reset ∧ (∀ i ∈ [Instr.seed 1, .next], i.wellFormed = true) ∧
    ∃ t, execAll [.seed 1, .next] State.reset = .next t ∧ t.retrying = false :=
  ⟨⟨rfl, rfl, rfl⟩, by decide, _, rfl, rfl⟩

/-- A command that never ends; a whole command; a reset. -/
theorem witness_EarlyWordsChangeNothing :
    (∃ t, step { State.reset with retrying := true } = .next t) ∧
    (decode [0x0400000000000000] ≠ .error .incomplete ∧ ∃ t, step (State.reset.send [0x0400000000000000]) = .next t) ∧
    (portTail (State.reset.pulseReset 0).port ≠ [] ∧ ∃ t, step (State.reset.pulseReset 0) = .next t) :=
  ⟨⟨_, rfl⟩, ⟨by decide, _, rfl⟩, by decide, _, rfl⟩

theorem witness_OneCommandIsOneStep : idle State.reset ∧ Instr.next.wellFormed = true := ⟨⟨rfl, rfl, rfl⟩, rfl⟩

theorem witness_SelectMakesAFreshInstance :
    10 ≤ (10 : BitVec 4).toNat ∧ 10 ≤ (15 : BitVec 4).toNat ∧ (0 : BitVec 4).toNat < 10 ∧ (9 : BitVec 4).toNat < 10 := by
  decide

/-- Every algorithm can be held, so each statement that asks for `ALG` alone (the `Seed…`, `Seedv…` and `Next…` ones)
has a state that meets it. -/
theorem witness_every_algorithm (a : Alg) : (holding (inst a [1, 2] 0)).gen.alg = a := rfl

/-- The two keys, one word and none, and the first and last steps of both passes. -/
theorem witness_SeedvMersenneMixesTheKey :
    (holding (inst .mt64 [] 313)).gen.alg = .mt64 ∧
    [0] = (if ([] : List Word) = [] then [0] else []) ∧ [3] = (if [(3 : Word)] = [] then [0] else [3]) ∧
    312 = max 312 [(3 : Word)].length ∧
    (0 < 312 ∧ 1 = 1 + 0 % 311 ∧ 0 = 0 % 1) ∧ (311 < 312 ∧ 1 = 1 + 311 % 311 ∧ 0 = 311 % 1) ∧
    (312 ≤ 312 ∧ 312 < 312 + 311 ∧ 2 = 1 + 312 % 311) ∧ (312 ≤ 622 ∧ 622 < 312 + 311 ∧ 1 = 1 + 622 % 311) := by decide

/-- A scalar seed, and a slice, over two different old states. -/
theorem witness_SeedingForgetsTheOldState :
    (holding (inst .xs64s [1] 0)).inv ∧ (holding (inst .xs64s [2] 0)).inv ∧
    (∃ t, exec (.seed 5) (holding (inst .xs64s [1] 0)) = .next t) ∧
    (∃ t, exec (.seed 5) (holding (inst .xs64s [2] 0)) = .next t) ∧
    (∃ t, exec (.seedv [5]) (holding (inst .xs64s [1] 0)) = .next t) ∧
    (∃ t, exec (.seedv [5]) (holding (inst .xs64s [2] 0)) = .next t) :=
  ⟨holding_inv (xs64s_inv 1), holding_inv (xs64s_inv 2), ⟨_, rfl⟩, ⟨_, rfl⟩, ⟨_, rfl⟩, ⟨_, rfl⟩⟩

/-- The first and the last place of the ring. -/
theorem witness_NextXorshift1024 :
    (holding (inst .xs1024s [1] 0)).gen.cur.toNat = 0 ∧ 0 < 16 ∧ 1 = (if 0 = 15 then 0 else 0 + 1) ∧
    (holding (inst .xs1024s [1] 15)).gen.cur.toNat = 15 ∧ 15 < 16 ∧ 0 = (if 15 = 15 then 0 else 15 + 1) := by decide

/-- The three conditions of an instance, the first one at both ends. -/
theorem witness_NextMersenne :
    (inst .mt64 [] 0).cur.toNat < 312 ∧ (inst .mt64 [] 311).cur.toNat < 312 ∧
    (∃ g, (inst .mt64 [] 312).cur = 312 ∧ g = mtTwist (inst .mt64 [] 312)) ∧
    (∃ g, (inst .mt64 [] 313).cur = 313 ∧ g = mtTwist (mtFill 5489 (inst .mt64 [] 313))) :=
  ⟨by decide, by decide, ⟨_, rfl, rfl⟩, ⟨_, rfl, rfl⟩⟩

theorem witness_NextXorshift128 :
    ({ hardware with xs128pShiftA := 18, xs128pShiftB := 5 } : Config.Params).xs128pShiftA = 18 ∧
    ({ hardware with xs128pShiftA := 18, xs128pShiftB := 5 } : Config.Params).xs128pShiftB = 5 := ⟨rfl, rfl⟩

/-- An MT64 instance can draw any number of times. -/
theorem mersenne_draws (k : Nat) (g : Generator) (ha : g.alg = .mt64) (hc : g.cur.toNat ≤ 313) :
    ∃ g', afterDraws hardware k g = .ok g' := by
  induction k generalizing g with
  | zero => exact ⟨g, rfl⟩
  | succ k ih =>
    obtain ⟨hq, hd⟩ := drawMt_ok g hc
    have hd' : draw hardware g = _ := (by simp only [draw, ha] : draw hardware g = drawMt g).trans hd
    rw [afterDraws_succ_of_ok hd']
    refine ih _ (by simp [ha]) ?_
    show ((mtReady g).cur + 1).toNat ≤ 313
    rw [BitVec.toNat_add, show (1 : BitVec 9).toNat = 1 from rfl]
    omega

/-- Both conditions at the start, and draws next to a twist: numbers 1, 2, 312 and 313. -/
theorem witness_MersenneTwistsEvery312Draws (c : BitVec 9) (hc : c = 312 ∨ c = 313) :
    (inst .mt64 [] c).alg = .mt64 ∧ (∃ g', afterDraws hardware 0 (inst .mt64 [] c) = .ok g') ∧
    (∃ g', afterDraws hardware 1 (inst .mt64 [] c) = .ok g') ∧ (∃ g', afterDraws hardware 2 (inst .mt64 [] c) = .ok g') ∧
    (∃ g', afterDraws hardware 311 (inst .mt64 [] c) = .ok g') ∧
    (∃ g', afterDraws hardware 312 (inst .mt64 [] c) = .ok g') ∧ (∃ g', afterDraws hardware 313 (inst .mt64 [] c) = .ok g') := by
  have h : ∀ k, ∃ g', afterDraws hardware k (inst .mt64 [] c) = .ok g' := fun k =>
    mersenne_draws k _ rfl (by rcases hc with rfl | rfl <;> decide)
  exact ⟨rfl, h 0, h 1, h 2, h 311, h 312, h 313⟩

/-- The draw from the state 0, whose new value is `PCG_INC`. -/
theorem witness_NextPcg :
    0x5851F42D4C957F2D14057B7EF767814F =
      (((holding (inst .pcg [] 0)).gen.S[1].toNat * 2 ^ 64 + (holding (inst .pcg [] 0)).gen.S[0].toNat) *
        0x2360ED051FC65DA44385DF649FCCF645 + 0x5851F42D4C957F2D14057B7EF767814F) % 2 ^ 128 ∧
    (0x14057B7EF767814F : Word).toNat = 0x5851F42D4C957F2D14057B7EF767814F % 2 ^ 64 ∧
    (0x5851F42D4C957F2D : Word).toNat = 0x5851F42D4C957F2D14057B7EF767814F / 2 ^ 64 := by decide +kernel

theorem witness_AllZeroStateReturnsZero :
    (holding (inst .xs1024s [0] 15)).inv ∧ allZero (holding (inst .xs1024s [0] 15)).gen := by
  refine ⟨holding_inv (xs1024s_inv 0), fun i hi _ => ?_⟩
  show (writeWords (Vector.replicate 312 0) 0 [0])[i] = 0
  rw [writeWords_getElem]
  split <;> simp

theorem witness_NonZeroStateStaysNonZero :
    hardware.Legal ∧ (inst .xs64s [1] 0).inv ∧ ¬ allZero (inst .xs64s [1] 0) ∧
    ∃ q, draw hardware (inst .xs64s [1] 0) = .ok q :=
  ⟨by decide, xs64s_inv 1, fun h => absurd (h 0 (by omega) (by decide)) (by decide +kernel), _, rfl⟩

theorem witness_ExpansionAllZeroCases :
    (2 ≤ 2 ∧ 2 ≤ 312) ∧ 2 ≤ [(0 : Word), 0].length ∧ ([] : List Word).length < 1 := by decide

/-- Both widths, and the largest residue. -/
theorem witness_AcceptedValuesAreUnbiased :
    1 ≤ 6 ∧ 6 < 2 ^ widthBits .w32 ∧ 5 < 6 ∧ (∀ k, 6 ≠ 2 ^ k) ∧ 6 < 2 ^ widthBits .w64 := by
  refine ⟨by decide, by decide, by decide, fun k => ?_, by decide⟩
  rcases Nat.lt_or_ge k 3 with h | h
  · interval_cases k <;> decide
  · have := Nat.pow_le_pow_right (show 0 < 2 by decide) h
    omega

/-- For `ThresholdFromNegatedBound` and `MoreThanHalfIsAccepted`: the smallest and the largest bound of each width. -/
theorem witness_bounds_of_a_width :
    (1 ≤ 1 ∧ 1 < 2 ^ widthBits .w32) ∧ (1 ≤ 2 ^ 32 - 1 ∧ 2 ^ 32 - 1 < 2 ^ widthBits .w32) ∧
    (1 ≤ 2 ^ 64 - 1 ∧ 2 ^ 64 - 1 < 2 ^ widthBits .w64) := by decide

/-- P5: the fourth raw draw is the first one accepted. -/
theorem first_accepted_fourth :
    ∃ v g, firstAccepted hardware .w64 0x8000000000000001 (inst .sm64 [1] 0) 3 v g := by
  refine ⟨_, _, firstAccepted_iff.2 ⟨rfl, by decide +kernel, fun j hj => ?_⟩⟩
  interval_cases j <;> exact ⟨_, _, rfl, by decide +kernel⟩

/-- The first raw draw is accepted, at either width. -/
theorem first_accepted_first (W : Width) : ∃ v g, firstAccepted hardware W 10 (inst .sm64 [1] 0) 0 v g := by
  refine ⟨_, _, firstAccepted_iff.2 ⟨rfl, ?_, fun j hj => by omega⟩⟩
  cases W <;> decide +kernel

/-- The four clauses: width 64, width 32, and `UINTN` with a bound that fits 32 bits and one that does not. -/
theorem witness_SamplerAnswersFirstAccepted :
    (10 : Word) ≠ 0 ∧ (∀ j, (10 : Word).toNat ≠ 2 ^ j) ∧ (10 : Word).toNat ≤ 0xFFFFFFFF ∧
    (∃ v g, firstAccepted hardware .w64 10 (holding (inst .sm64 [1] 0)).gen 0 v g) ∧
    (∃ v g, firstAccepted hardware .w32 10 (holding (inst .sm64 [1] 0)).gen 0 v g) ∧
    (0x8000000000000001 : Word) ≠ 0 ∧ (∀ j, (0x8000000000000001 : Word).toNat ≠ 2 ^ j) ∧
    0xFFFFFFFF < (0x8000000000000001 : Word).toNat ∧
    (∃ v g, firstAccepted hardware .w64 0x8000000000000001 (holding (inst .sm64 [1] 0)).gen 3 v g) :=
  ⟨by decide, (isPowerOfTwo_eq_false (by decide)).1 (by decide), by decide, first_accepted_first .w64,
    first_accepted_first .w32, by decide, (isPowerOfTwo_eq_false (by decide)).1 (by decide), by decide,
    first_accepted_fourth⟩

/-- The exponents 0, 31, 32 and 63. -/
theorem witness_SamplerMasksForPowersOfTwo :
    (∃ q, draw hardware (holding (inst .sm64 [1] 0)).gen = .ok q) ∧ (1 : Word).toNat = 2 ^ 0 ∧
    (0x80000000 : Word).toNat = 2 ^ 31 ∧ 31 < 32 ∧ (0x100000000 : Word).toNat = 2 ^ 32 ∧ 32 ≤ 32 ∧
    (0x8000000000000000 : Word).toNat = 2 ^ 63 := ⟨⟨_, rfl⟩, by decide⟩

/-- The three commands, `UINTN` on both sides of `2^32`. -/
theorem witness_SamplerEndsExactlyWhenAccepted :
    (holding (inst .sm64 [1] 0)).inv ∧ (holding (inst .sm64 [1] 0)).retrying = false ∧
    (0xFFFFFFFF : Word) ≠ 0 ∧ (∀ j, (0xFFFFFFFF : Word).toNat ≠ 2 ^ j) ∧ (0xFFFFFFFF : Word).toNat ≤ 0xFFFFFFFF ∧
    Width.w32 = (if (0xFFFFFFFF : Word).toNat ≤ 0xFFFFFFFF then .w32 else .w64) ∧
    (0x100000001 : Word) ≠ 0 ∧ (∀ j, (0x100000001 : Word).toNat ≠ 2 ^ j) ∧
    Width.w64 = (if (0x100000001 : Word).toNat ≤ 0xFFFFFFFF then .w32 else .w64) :=
  ⟨holding_inv (sm64_inv 1), rfl, by decide, (isPowerOfTwo_eq_false (by decide)).1 (by decide), by decide, by decide,
    by decide, (isPowerOfTwo_eq_false (by decide)).1 (by decide), by decide⟩

/-- For `BadBoundFaults` and `UintnDispatchesByBound`: the bounds next to `2^32`. -/
theorem witness_bounds_next_to_32_bits :
    (0xFFFFFFFF : Word).toNat ≤ 0xFFFFFFFF ∧ 0xFFFFFFFF < (0x100000000 : Word).toNat := by decide

/-- A result of each kind: reduced, masked. Also for `DrawsAccountForTheState`. -/
theorem witness_SamplerResultIsBelowTheBound :
    (∃ t v, exec (.unif64 10) (holding (inst .sm64 [1] 0)) = .next t ∧
      t.out = (holding (inst .sm64 [1] 0)).out ++ [⟨.ok, v⟩]) ∧
    (∃ t v, exec (.uintn 1) (holding (inst .sm64 [1] 0)) = .next t ∧
      t.out = (holding (inst .sm64 [1] 0)).out ++ [⟨.ok, v⟩]) ∧
    (∃ t v, exec .next (holding (inst .sm64 [1] 0)) = .next t ∧
      t.out = (holding (inst .sm64 [1] 0)).out ++ [⟨.ok, v⟩]) ∧ (∃ j, (1 : Word).toNat = 2 ^ j) := by
  obtain ⟨u, f, hd⟩ : ∃ u f, draw hardware (holding (inst .sm64 [1] 0)).gen = .ok (u, f) := ⟨_, _, rfl⟩
  obtain ⟨v, g, h⟩ := first_accepted_first .w64
  have h1 := sample_of_firstAccepted (by decide) h
  have h2 := (sample_eq_some (P := hardware) (W := .w32) (n := 1)).2 (.inl ⟨by decide, _, hd, rfl⟩)
  refine ⟨⟨_, rawValue .w64 v % 10, (exec_unif64_of_ne _ (by decide)).trans (sampleCommand_of_some h1), by simp only [respond_out, withGen_out]⟩,
    ⟨_, rawValue .w32 u &&& (1 - 1), (exec_uintn_of_le _ (by decide) (by decide)).trans (sampleCommand_of_some h2), by simp only [respond_out, withGen_out]⟩,
    ⟨_, u, execNext_of_draw hd, by simp only [respond_out, withGen_out]⟩, 0, by decide⟩

/-- For `StepKeepsTheInvariant` and `StepNeverStops`: a block that runs a command, and one that waits. -/
theorem witness_StepKeepsTheInvariant :
    ((holding (inst .sm64 [1] 0)).send [0x0400000000000000]).inv ∧ (holding (inst .xs1024s [1] 15)).inv ∧
    (∃ t, step ((holding (inst .sm64 [1] 0)).send [0x0400000000000000]) = .next t) ∧
    (∃ t, step (holding (inst .xs1024s [1] 15)) = .next t) :=
  ⟨⟨sm64_inv 1, rfl⟩, holding_inv (xs1024s_inv 1), ⟨_, rfl⟩, ⟨_, rfl⟩⟩

theorem witness_FaultingCommandChangesNothing :
    ∃ t, exec (.unif64 0) State.reset = .next t ∧ t.out = State.reset.out ++ [⟨.badBound, 0⟩] ∧ Status.badBound ≠ .ok :=
  ⟨_, rfl, rfl, by decide⟩

theorem witness_OneResponsePerCommand :
    State.reset.retrying = false ∧ ∃ t, exec .next State.reset = .next t := ⟨rfl, _, rfl⟩

theorem witness_UnseededOnlyAfterSelect :
    ∃ t, exec (.select 8) (holding (inst .sm64 [1] 0)) = .next t ∧
      t.out = (holding (inst .sm64 [1] 0)).out ++ [⟨.ok, 0⟩] ∧ t.gen.alg = .mt64 ∧ (holding (inst .sm64 [1] 0)).inv ∧
      t.gen.cur = 313 :=
  ⟨((holding (inst .sm64 [1] 0)).withGen (freshGenerator .mt64)).respond 0, rfl, by simp only [respond_out, withGen_out], rfl,
    holding_inv (sm64_inv 1), rfl⟩

theorem witness_UpermIsAPermutation :
    ∀ (i : Nat) (h : i < [0, 0, 2, 1].length), [0, 0, 2, 1][i] ≤ i := by decide

/-- A whole number of words, and one byte more. -/
theorem witness_BulkBytesAreLittleEndian :
    [(1 : Word)].length = (8 + 7) / 8 ∧ [(1 : Word), 2].length = (9 + 7) / 8 ∧ (1 < [(1 : Word), 2].length ∧ 0 < 8 ∧
      8 * 1 + 0 < 9) := by decide

end Sys2Proof.Tests
end

