-- ==== Sys2Proof/Proofs/PortBytes.lean ====
section
/-! PROOF. A port carried as bytes (spec/00_scope.md R12, spec/20_memory.md R61): which byte of a word, and which bit of
a byte, each bit of the word is. -/

namespace Sys2Proof.Machine

@[simp] theorem length_bytesLittle (w : Word) : (bytesLittle w).length = 8 := by
  simp [bytesLittle]

theorem getElem?_bytesLittle (w : Word) {t : Nat} (ht : t < 8) :
    (bytesLittle w)[t]? = some (w.extractLsb' (8 * t) 8) := by
  simp [bytesLittle, ht]

/-- In either order a word travels as eight bytes. -/
@[simp] theorem length_bytesInOrder (o : Config.ByteOrder) (w : Word) : (bytesInOrder o w).length = 8 := by
  cases o with
  | little => exact length_bytesLittle w
  | big => exact (List.length_reverse ..).trans (length_bytesLittle w)

/-- Bits 7:0 of the word read are the first byte; the bits above are the word of the later bytes. -/
theorem getLsbD_wordOfLittle_cons (b : Byte) (bs : List Byte) {i : Nat} (hi : i < 64) :
    (wordOfLittle (b :: bs)).getLsbD i = if i < 8 then b.getLsbD i else (wordOfLittle bs).getLsbD (i - 8) := by
  simp only [wordOfLittle, BitVec.getLsbD_or, BitVec.getLsbD_shiftLeft, BitVec.zeroExtend_eq_setWidth,
    BitVec.getLsbD_setWidth]
  split
  · next hlow => simp [hi, hlow]
  · next hhigh => simp only [hi, hhigh, BitVec.getLsbD_of_ge b i (Nat.not_lt.1 hhigh), decide_true, decide_false,
      Bool.not_false, Bool.true_and, Bool.and_false, Bool.or_false]

/-- Bit `i` of the word read is bit `i % 8` of byte `i / 8`; past the last byte the word is zero. -/
theorem getLsbD_wordOfLittle (bs : List Byte) {i : Nat} (hi : i < 64) :
    (wordOfLittle bs).getLsbD i = (bs[i / 8]?.getD 0).getLsbD (i % 8) := by
  induction bs generalizing i with
  | nil => simp [wordOfLittle]
  | cons b bs ih =>
    rw [getLsbD_wordOfLittle_cons b bs hi]
    split
    · next hlow => simp [Nat.div_eq_of_lt hlow, Nat.mod_eq_of_lt hlow]
    · next hhigh =>
      have hdiv : i / 8 = (i - 8) / 8 + 1 := by omega
      have hmod : i % 8 = (i - 8) % 8 := by omega
      rw [ih (by omega), hdiv, hmod, List.getElem?_cons_succ]

/-- The least significant byte first: bit `i` of the word is bit `i % 8` of byte `i / 8`, written and read alike. -/
@[simp] theorem wordOfLittle_bytesLittle (w : Word) : wordOfLittle (bytesLittle w) = w := by
  refine BitVec.eq_of_getLsbD_eq fun i hi => ?_
  have hbit : i % 8 < 8 := Nat.mod_lt i (by decide)
  calc (wordOfLittle (bytesLittle w)).getLsbD i
      = (w.extractLsb' (8 * (i / 8)) 8).getLsbD (i % 8) := by
        rw [getLsbD_wordOfLittle _ hi, getElem?_bytesLittle w (by omega), Option.getD_some]
    _ = w.getLsbD (8 * (i / 8) + i % 8) := by simp [hbit]
    _ = w.getLsbD i := by rw [Nat.div_add_mod]

@[simp] theorem wordInOrder_bytesInOrder (o : Config.ByteOrder) (w : Word) : wordInOrder o (bytesInOrder o w) = w := by
  cases o with
  | little => exact wordOfLittle_bytesLittle w
  | big => simp [wordInOrder, bytesInOrder]

/-- Settles O58: the most significant byte first is the other order reversed, and reversing twice changes nothing. -/
theorem portBytesComeBack : Obligations.PortBytesComeBack := fun o w =>
  ⟨length_bytesInOrder o w, wordInOrder_bytesInOrder o w⟩

end Sys2Proof.Machine
end

