-- ==== Sys2Proof/Proofs/Invariant.lean ====
section
/-! PROOF. The invariant of spec/10_state.md R45: reset and `SELECT` make generators that have it, seeding and drawing
keep it and leave no MT64 generator unseeded, and a step of the machine does nothing else to `ALG`, `S` and `CUR`. -/

namespace Sys2Proof.Machine

variable {P : Config.Params} {g g' : Generator} {i : Instr} {s t : State} {v n : Word} {W : Width}

/-! ## Where `CUR` can stand, by algorithm -/

theorem cursorLegal_xs1024s (ha : g.alg = .xs1024s) : cursorLegal g ↔ g.cur.toNat ≤ 15 := by
  simp only [cursorLegal, ha]

theorem cursorLegal_mt64 (ha : g.alg = .mt64) : cursorLegal g ↔
    1 ≤ g.cur.toNat ∧ g.cur.toNat ≤ 313 ∧ (g.cur = mtUnseeded → ∀ (i : Nat) (h : i < 312), g.S[i] = 0) := by
  simp only [cursorLegal, ha]

theorem cursorLegal_other (hx : g.alg ≠ .xs1024s) (hm : g.alg ≠ .mt64) : cursorLegal g ↔ g.cur = 0 := by
  unfold cursorLegal
  split
  case h_1 ha => exact absurd ha hx
  case h_2 ha => exact absurd ha hm
  all_goals rfl

/-- A legal cursor that is not the MT64 marker "unseeded": where every command but `SELECT` leaves `CUR` (R45 d). -/
def cursorSeeded (g : Generator) : Prop := cursorLegal g ∧ g.cur ≠ mtUnseeded

theorem cursorSeeded_xs1024s (ha : g.alg = .xs1024s) (hc : g.cur.toNat ≤ 15) : cursorSeeded g := by
  refine ⟨(cursorLegal_xs1024s ha).2 hc, fun hu => ?_⟩
  simp [hu, mtUnseeded] at hc

theorem cursorSeeded_mt64 (ha : g.alg = .mt64) (h1 : 1 ≤ g.cur.toNat) (hc : g.cur.toNat ≤ 312) :
    cursorSeeded g := by
  have hu : g.cur ≠ mtUnseeded := fun hu => by simp [hu, mtUnseeded] at hc
  exact ⟨(cursorLegal_mt64 ha).2 ⟨h1, by omega, fun h => absurd h hu⟩, hu⟩

theorem cursorSeeded_other (hx : g.alg ≠ .xs1024s) (hm : g.alg ≠ .mt64) (hc : g.cur = 0) : cursorSeeded g :=
  ⟨(cursorLegal_other hx hm).2 hc, by rw [hc]; decide⟩

/-- `CUR = 0` is legal for every algorithm but MT64. -/
theorem cursorSeeded_of_zero (hm : g.alg ≠ .mt64) (hc : g.cur = 0) : cursorSeeded g := by
  by_cases hx : g.alg = .xs1024s
  · exact cursorSeeded_xs1024s hx (by simp [hc])
  · exact cursorSeeded_other hx hm hc

/-- Words the algorithm does not use stay zero if neither they nor `ALG` change. -/
theorem tailZero_of_frame (ht : tailZero g) (ha : g'.alg = g.alg)
    (hf : ∀ (i : Nat) (hi : i < 312), stateWords g.alg ≤ i → g'.S[i] = g.S[i]) : tailZero g' := fun i hi hn => by
  rw [ha] at hn
  rw [hf i hi hn, ht i hi hn]

/-! ## A fresh generator -/

theorem freshGenerator_cur_of_ne {a : Alg} (hm : a ≠ .mt64) : (freshGenerator a).cur = 0 := by
  cases a with
  | mt64 => exact absurd rfl hm
  | _ => rfl

/-- `SELECT` makes a generator with the invariant (R111). -/
theorem freshGenerator_inv (a : Alg) : (freshGenerator a).inv := by
  have hzero : ∀ (i : Nat) (hi : i < 312), (freshGenerator a).S[i] = 0 := fun i hi => Vector.getElem_replicate ..
  refine ⟨fun i hi _ => hzero i hi, ?_⟩
  by_cases hm : a = .mt64
  · subst hm
    exact (cursorLegal_mt64 rfl).2 ⟨by decide, by decide, fun _ => hzero⟩
  · exact (cursorSeeded_of_zero hm (freshGenerator_cur_of_ne hm)).1

/-- Reset leaves what `SELECT SM64` makes (R44). -/
theorem reset_gen : State.reset.gen = freshGenerator .sm64 := rfl

/-! ## Seeding and drawing -/

/-- A draw of XS1024S advances the ring cursor (R165). -/
theorem draw_cur_xs1024s (h : draw P g = .ok (v, g')) (ha : g.alg = .xs1024s) : g'.cur = ringNext g.cur := by
  simp only [draw, ha] at h
  obtain ⟨-, x, -, rfl⟩ := drawXs1024s_eq_ok h
  rfl

/-- A draw of MT64 leaves `CUR` one past the word it read, so never at 0 (R206, R207). -/
theorem draw_cur_mt64 (h : draw P g = .ok (v, g')) (ha : g.alg = .mt64) :
    1 ≤ g'.cur.toNat ∧ g'.cur.toNat ≤ 312 := by
  simp only [draw, ha] at h
  obtain ⟨hc, -, rfl⟩ := drawMt_eq_ok h
  have hone : (1 : BitVec 9).toNat = 1 := rfl
  simp only [BitVec.toNat_add, hone]
  omega

/-- The draws of the other algorithms do not write `CUR`. -/
theorem draw_cur_other (h : draw P g = .ok (v, g')) (hx : g.alg ≠ .xs1024s) (hm : g.alg ≠ .mt64) :
    g'.cur = g.cur := by
  unfold draw at h
  split at h
  case h_4 ha => exact absurd ha hx
  case h_9 ha => exact absurd ha hm
  all_goals
    obtain rfl := congrArg Prod.snd (Except.ok.inj h)
    rfl

theorem draw_cursorSeeded (h : draw P g = .ok (v, g')) (hg : cursorLegal g) : cursorSeeded g' := by
  have ha := draw_alg h
  by_cases hx : g.alg = .xs1024s
  · refine cursorSeeded_xs1024s (ha.trans hx) ?_
    rw [draw_cur_xs1024s h hx]
    exact ringNext_le g.cur
  by_cases hm : g.alg = .mt64
  · obtain ⟨h1, hc⟩ := draw_cur_mt64 h hm
    exact cursorSeeded_mt64 (ha.trans hm) h1 hc
  · refine cursorSeeded_other (ha ▸ hx) (ha ▸ hm) ?_
    rw [draw_cur_other h hx hm]
    exact (cursorLegal_other hx hm).1 hg

theorem seedScalar_cursorSeeded (x : Word) (hg : cursorLegal g) : cursorSeeded (seedScalar P x g) := by
  have ha := seedScalar_alg P x g
  have hc := seedScalar_cur P x g
  by_cases hm : g.alg = .mt64
  · simp only [hm] at hc
    exact cursorSeeded_mt64 (ha.trans hm) (by simp [hc]) (by simp [hc])
  by_cases hx : g.alg = .xs1024s
  · simp only [hx] at hc
    exact cursorSeeded_of_zero (ha ▸ hm) hc
  · refine cursorSeeded_of_zero (ha ▸ hm) ?_
    rw [hc, (cursorLegal_other hx hm).1 hg]
    split
    case h_4 ha => exact absurd ha hm
    all_goals rfl

theorem seedSlice_cursorSeeded {ws : List Word} (h : seedSlice ws g = some g') : cursorSeeded g' := by
  obtain ⟨ha, -, ⟨hx, hc⟩ | ⟨hm, hc⟩⟩ := seedSlice_cases h
  · refine cursorSeeded_of_zero (fun hm => ?_) hc
    rw [← ha, hm] at hx
    simp at hx
  · exact cursorSeeded_mt64 (ha.trans hm) (by simp [hc]) (by simp [hc])

/-- A generator with the invariant that is no unseeded MT64. -/
def Generator.seeded (g : Generator) : Prop := tailZero g ∧ cursorSeeded g

theorem Generator.seeded.inv (h : g.seeded) : g.inv := ⟨h.1, h.2.1⟩

theorem draw_seeded (hg : g.inv) (h : draw P g = .ok (v, g')) : g'.seeded :=
  ⟨tailZero_of_frame hg.1 (draw_alg h) (draw_frame h), draw_cursorSeeded h hg.2⟩

theorem seedScalar_seeded (hg : g.inv) (x : Word) : (seedScalar P x g).seeded :=
  ⟨tailZero_of_frame hg.1 (seedScalar_alg P x g) (seedScalar_frame P x g), seedScalar_cursorSeeded x hg.2⟩

theorem seedSlice_seeded {ws : List Word} (hg : g.inv) (h : seedSlice ws g = some g') : g'.seeded := by
  obtain ⟨ha, hf, -⟩ := seedSlice_cases h
  exact ⟨tailZero_of_frame hg.1 ha hf, seedSlice_cursorSeeded h⟩

/-- The same of the last of any number of draws in a row. -/
theorem drawNth_seeded {k : Nat} (hg : g.inv) (h : drawNth P k g = .ok (v, g')) : g'.seeded := by
  induction k generalizing g with
  | zero => exact draw_seeded hg h
  | succ k ih =>
    cases hd : draw P g with
    | error f => simp [drawNth, hd] at h
    | ok q =>
      rw [drawNth_succ_of_ok hd] at h
      exact ih (draw_seeded hg hd).inv h

/-- A sampler's answer comes with the generator after one of the draws in a row (R242). -/
theorem sample_seeded (hg : g.inv) (h : sample P W n g = .ok (some (v, g'))) : g'.seeded := by
  obtain ⟨-, u, hd, -⟩ | ⟨-, k, -, u, ⟨hd, -⟩, -⟩ := sample_eq_some.1 h
  · exact draw_seeded hg hd
  · exact drawNth_seeded hg hd

/-! ## What a command that responds `OK` does to `ALG`, `S` and `CUR` -/

/-- `Effect i g v g'`: the command `i` responds `(OK, v)` and takes the generator from `g` to `g'` (R111 to R114, R243
to R245). -/
inductive Effect : Instr → Generator → Word → Generator → Prop
  | select (a : Alg) (g : Generator) : Effect (.select (algNumber a)) g 0 (freshGenerator a)
  | seed (x : Word) (g : Generator) : Effect (.seed x) g 0 (seedScalar hardware x g)
  | seedv {ws : List Word} {g g' : Generator} (h : seedSlice ws g = some g') : Effect (.seedv ws) g 0 g'
  | next {g g' : Generator} {v : Word} (h : draw hardware g = .ok (v, g')) : Effect .next g v g'
  | sampler {i : Instr} {n v : Word} {W : Width} {g g' : Generator}
      (hi : i = .unif64 n ∨ i = .unif32 n ∨ i = .uintn n)
      (h : sample hardware W n g = .ok (some (v, g'))) : Effect i g v g'

/-- An algorithm is named by its number only (R32, R85). -/
theorem algOfNumber_eq_some {algf : BitVec 4} {a : Alg} (h : algOfNumber algf = some a) : algf = algNumber a := by
  revert algf a
  decide

/-- A fault's response is not `OK`. -/
theorem not_ok_of_raise {f : Status} (hf : f ≠ .ok)
    (h : (.next (s.raise f) : Host.Outcome State Fault Refusal) = .next t) : t.out ≠ s.out ++ [⟨.ok, v⟩] := by
  obtain rfl := Host.Outcome.next.inj h
  simp [hf]

theorem sample_of_sampleCommand (h : sampleCommand W n s = .next t) (ho : t.out = s.out ++ [⟨.ok, v⟩]) :
    sample hardware W n s.gen = .ok (some (v, t.gen)) := by
  obtain ⟨u, g, hs, rfl⟩ | ⟨-, rfl⟩ := sampleCommand_cases h
  · obtain rfl : u = v := by simpa using ho
    exact hs
  · simp at ho

/-- The inversion of `exec` for a command that takes effect. -/
theorem effect_of_exec (h : exec i s = .next t) (ho : t.out = s.out ++ [⟨.ok, v⟩]) : Effect i s.gen v t.gen := by
  cases i with
  | select algf =>
    simp only [exec, execSelect] at h
    split at h
    · next a ha =>
      obtain rfl := Host.Outcome.next.inj h
      obtain rfl : 0 = v := by simpa using ho
      rw [algOfNumber_eq_some ha]
      exact .select a s.gen
    · exact absurd ho (not_ok_of_raise (by decide) h)
  | seed x =>
    obtain rfl := Host.Outcome.next.inj h
    obtain rfl : 0 = v := by simpa using ho
    exact .seed x s.gen
  | seedv ws =>
    simp only [exec, execSeedv] at h
    split at h
    · next g hg =>
      obtain rfl := Host.Outcome.next.inj h
      obtain rfl : 0 = v := by simpa using ho
      exact .seedv hg
    · exact absurd ho (not_ok_of_raise (by decide) h)
  | next =>
    simp only [exec, execNext] at h
    split at h
    · next u g hd =>
      obtain rfl := Host.Outcome.next.inj h
      obtain rfl : u = v := by simpa using ho
      exact .next hd
    · simp at h
  | unif64 n =>
    simp only [exec, execUnif64] at h
    split at h
    · exact absurd ho (not_ok_of_raise (by decide) h)
    · exact .sampler (.inl rfl) (sample_of_sampleCommand h ho)
  | unif32 n =>
    simp only [exec, execUnif32] at h
    split at h
    · exact absurd ho (not_ok_of_raise (by decide) h)
    · exact .sampler (.inr (.inl rfl)) (sample_of_sampleCommand h ho)
  | uintn n =>
    simp only [exec, execUintn] at h
    split at h
    · exact absurd ho (not_ok_of_raise (by decide) h)
    · split at h <;> exact .sampler (.inr (.inr rfl)) (sample_of_sampleCommand h ho)

/-- A command that takes effect is a `SELECT` and makes a fresh generator, or leaves a seeded one (R45 d). -/
theorem Effect.fresh_or_seeded (h : Effect i g v g') (hg : g.inv) :
    (∃ a, i = .select (algNumber a) ∧ g' = freshGenerator a) ∨ g'.seeded := by
  cases h with
  | select a g => exact .inl ⟨a, rfl, rfl⟩
  | seed x g => exact .inr (seedScalar_seeded hg x)
  | seedv hs => exact .inr (seedSlice_seeded hg hs)
  | next hd => exact .inr (draw_seeded hg hd)
  | sampler hi hs => exact .inr (sample_seeded hg hs)

theorem Effect.inv (h : Effect i g v g') (hg : g.inv) : g'.inv := by
  obtain ⟨a, -, rfl⟩ | hs := h.fresh_or_seeded hg
  · exact freshGenerator_inv a
  · exact hs.inv

/-! ## The machine -/

/-- Every command keeps the invariant: a fault and a command that never ends leave the generator as it was. -/
theorem exec_keeps_inv (hs : s.inv) (h : exec i s = .next t) : t.inv := by
  obtain ⟨g, v, rfl⟩ | ⟨f, -, rfl⟩ | ⟨-, rfl⟩ := exec_cases h
  · exact ⟨(effect_of_exec h (respond_out ..)).inv hs.1, hs.2⟩
  · exact hs
  · exact hs

theorem consumeCommand_inv (hs : s.inv) (rest : List Word) : (consumeCommand s rest).inv := ⟨hs.1, rfl⟩

theorem afterReset_inv (ahead : List PortEvent) : (afterReset ahead).inv := ⟨freshGenerator_inv .sm64, rfl⟩

theorem takeReset_inv (hs : s.inv) : (takeReset s).inv := by
  obtain ⟨-, h⟩ | ⟨k, ahead, -, h⟩ := takeReset_cases s <;> rw [h]
  · exact hs
  · exact afterReset_inv ahead

/-- What the waiting block holds is what it sees, and that is no whole command (R42, R110). -/
theorem awaitWords_inv (hs : s.inv) (hd : decode (visibleWords s) = .error .incomplete) : (awaitWords s).inv := by
  obtain ⟨-, h⟩ | ⟨k, ahead, -, h⟩ := awaitWords_cases s <;> rw [h]
  · exact ⟨hs.1, hd⟩
  · exact afterReset_inv ahead

/-! ## The statements -/

/-- Settles O49: by the cases of a step, each of which keeps the invariant. -/
theorem stepKeepsTheInvariant : Obligations.StepKeepsTheInvariant := fun s t hs h => by
  obtain ⟨-, rfl⟩ | ⟨-, -, i, rest, -, hx⟩ | ⟨-, -, why, rest, -, rfl⟩ | ⟨-, -, hd, rfl⟩ := step_cases h
  · exact takeReset_inv hs
  · exact exec_keeps_inv (consumeCommand_inv hs rest) hx
  · exact consumeCommand_inv hs rest
  · exact awaitWords_inv hs hd

/-- Settles O54: every other command that takes effect leaves a seeded generator, and 8 is the number of MT64. -/
theorem unseededOnlyAfterSelect : Obligations.UnseededOnlyAfterSelect := fun i s t v h ho hm hs hc => by
  obtain ⟨a, rfl, hg⟩ | ⟨-, -, hu⟩ := (effect_of_exec h ho).fresh_or_seeded hs.1
  · obtain rfl : a = .mt64 := by rw [← hm, hg]; rfl
    rfl
  · exact absurd hc hu

/-- Settles O10: number 0 is SM64, and reset leaves a fresh generator of it. -/
theorem resetLeavesAFreshInstance : Obligations.ResetLeavesAFreshInstance :=
  ⟨rfl, fun _ _ => Vector.getElem_replicate .., rfl, rfl, rfl,
    fun s => ⟨(s.withGen (freshGenerator .sm64)).respond 0, rfl, reset_gen.symm⟩⟩

/-- Settles O48: a fresh generator has the invariant, and an empty buffer holds no command. -/
theorem invariantHoldsAtReset : Obligations.InvariantHoldsAtReset := afterReset_inv []

/-- Settles O59: the table of R32 as `stateWords` has it. -/
theorem wordsEachAlgorithmUses : Obligations.WordsEachAlgorithmUses :=
  ⟨rfl, rfl, rfl, rfl, rfl, rfl, rfl, rfl, rfl, rfl⟩

end Sys2Proof.Machine
end

