-- ==== Sys2Proof/Proofs/CommandStream.lean ====
section
/-! PROOF. A stream of commands (spec/20_memory.md R67): a command sent is read back as it is, it neither reads nor
changes the command port, and so the words sent after it lie ahead for the next command. -/

namespace Sys2Proof

variable {i : Instr}

/-- The header of a command's words classifies as that command (R88). -/
theorem decodeCommand_of_encode {h : Word} {p : List Word} (he : encode i = h :: p) : decodeCommand h p = .ok i := by
  cases i <;> obtain ⟨rfl, rfl⟩ := List.cons.inj he <;> simp [decodeCommand, operandOf]

/-- A well-formed command is read back from its words, whatever follows them (R82, R84). -/
theorem decode_encode_append (hw : i.wellFormed = true) (rest : List Word) :
    decode (encode i ++ rest) = .ok (i, rest) := by
  have hframed : Laws.Framed.Statement i := by
    cases i with
    | select algf => exact Laws.Framed.select algf
    | seed s => exact Laws.Framed.seed s
    | seedv words => exact Laws.Framed.seedv words
    | next => exact Laws.Framed.next
    | unif64 n => exact Laws.Framed.unif64 n
    | unif32 n => exact Laws.Framed.unif32 n
    | uintn n => exact Laws.Framed.uintn n
  obtain ⟨h, p, he, hp⟩ := hframed hw
  exact decode_eq_ok.2 ⟨h, p, by rw [he, List.cons_append], hp, decodeCommand_of_encode he⟩

end Sys2Proof

namespace Sys2Proof.Machine

variable {i : Instr} {is : List Instr} {s t : State} {W : Width} {n : Word}

/-! ## What a command does to the ports -/

/-- The meaning of a command leaves the assembly buffer and the command port alone, and never clears `retrying`, which
only a reset does (R247, R301). -/
theorem exec_frame (h : exec i s = .next t) :
    t.asm = s.asm ∧ t.port = s.port ∧ (t.retrying = false → s.retrying = false) := by
  obtain ⟨g, v, rfl⟩ | ⟨f, -, rfl⟩ | ⟨-, rfl⟩ := exec_cases h
  · exact ⟨rfl, rfl, id⟩
  · exact ⟨rfl, rfl, id⟩
  · exact ⟨rfl, rfl, nofun⟩

theorem sampleCommand_withPort (es : List PortEvent) (h : sampleCommand W n s = .next t) :
    sampleCommand W n { s with port := es } = .next { t with port := es } := by
  obtain ⟨v, g, hs, rfl⟩ | ⟨hs, rfl⟩ := sampleCommand_cases h
  · exact sampleCommand_of_some hs
  · simp only [sampleCommand, hs]

/-- What lies ahead at the inputs makes no difference to a command (R306). -/
theorem exec_withPort (es : List PortEvent) (h : exec i s = .next t) :
    exec i { s with port := es } = .next { t with port := es } := by
  have hok (g : Generator) (v : Word) :
      (.next ((s.withGen g).respond v) : Host.Outcome State Fault Refusal) = .next t →
      (.next (({ s with port := es }.withGen g).respond v) : Host.Outcome State Fault Refusal) =
        .next { t with port := es } := by
    rintro ⟨⟩
    rfl
  have hfault (f : Status) : (.next (s.raise f) : Host.Outcome State Fault Refusal) = .next t →
      (.next ({ s with port := es }.raise f) : Host.Outcome State Fault Refusal) = .next { t with port := es } := by
    rintro ⟨⟩
    rfl
  revert h
  cases i with
  | select algf =>
    simp only [exec, execSelect]
    split
    · exact hok _ _
    · exact hfault _
  | seed x => exact hok _ _
  | seedv ws =>
    simp only [exec, execSeedv]
    split
    · exact hok _ _
    · exact hfault _
  | next =>
    simp only [exec, execNext]
    split
    · exact hok _ _
    · exact nofun
  | unif64 n =>
    simp only [exec, execUnif64]
    split
    · exact hfault _
    · exact sampleCommand_withPort es
  | unif32 n =>
    simp only [exec, execUnif32]
    split
    · exact hfault _
    · exact sampleCommand_withPort es
  | uintn n =>
    simp only [exec, execUintn]
    split
    · exact hfault _
    · split <;> exact sampleCommand_withPort es

/-! ## Commands one after the other -/

theorem execAll_cons : execAll (i :: is) s = .next t ↔ ∃ u, exec i s = .next u ∧ execAll is u = .next t := by
  rw [execAll]
  cases exec i s <;> simp

/-- A list of commands leaves alone what each of them does. -/
theorem execAll_frame (h : execAll is s = .next t) :
    t.asm = s.asm ∧ t.port = s.port ∧ (t.retrying = false → s.retrying = false) := by
  induction is generalizing s with
  | nil =>
    obtain rfl := Host.Outcome.next.inj h
    exact ⟨rfl, rfl, id⟩
  | cons i is ih =>
    obtain ⟨u, hu, ht⟩ := execAll_cons.1 h
    obtain ⟨hasm, hport, hret⟩ := exec_frame hu
    obtain ⟨hasm', hport', hret'⟩ := ih ht
    exact ⟨hasm'.trans hasm, hport'.trans hport, hret ∘ hret'⟩

/-! ## A command whose words are next on the port -/

theorem allowOneMore_map_word (ws : List Word) (es : List PortEvent) :
    allowOneMore (ws.map .word ++ es) = ws.map .word ++ allowOneMore es := by
  induction ws with
  | nil => rfl
  | cons w ws ih => simp [allowOneMore, ih]

@[simp] theorem allowOneMore_iterate_nil (k : Nat) : allowOneMore^[k] [] = [] := Function.iterate_fixed rfl k

/-- Finishing a command undoes the allowance made for it. -/
@[simp] theorem countFinished_portTail_allowOneMore (es : List PortEvent) :
    countFinished (portTail (allowOneMore es)) = portTail es := by
  induction es with
  | nil => rfl
  | cons e es ih => cases e <;> simp [allowOneMore, ih]

theorem loadWords_of_ready (hasm : s.asm = []) (hret : s.retrying = false) (ws : List Word) :
    loadWords s ws = { s with port := ws.map .word ++ allowOneMore s.port } := by
  rw [loadWords, ← hasm, ← hret]

/-- With one command's words next on the port, a step is that command's meaning, on the state from which its words are
taken (R110). -/
theorem step_loadWords_encode (hasm : s.asm = []) (hret : s.retrying = false) (hw : i.wellFormed = true) :
    step (loadWords s (encode i)) = exec i s := by
  have hconsumed : consumeCommand (loadWords s (encode i)) (portWords s.port) = s := by
    rw [consumeCommand, loadWords_port, portTail_map_word, countFinished_portTail_allowOneMore,
      port_eq_words_append_tail, loadWords, ← hasm, ← hret]
  rw [step_of_ready (loadWords_retrying ..) (resetArrives_eq_false.1 (resetArrives_loadWords ..)),
    visibleWords_loadWords, decode_encode_append hw]
  exact congrArg (exec i) hconsumed

/-- A step with one command's words next on the port: the command takes effect, and what follows its words, now one
command nearer, lies ahead. -/
theorem step_encode_ahead (ahead : List PortEvent) (hasm : s.asm = []) (hret : s.retrying = false)
    (hw : i.wellFormed = true) (h : exec i s = .next t) :
    step { s with port := (encode i).map .word ++ allowOneMore ahead } = .next { t with port := ahead } :=
  calc step { s with port := (encode i).map .word ++ allowOneMore ahead }
    _ = step (loadWords { s with port := ahead } (encode i)) := by
        rw [loadWords_of_ready (s := { s with port := ahead }) hasm hret]
    _ = exec i { s with port := ahead } := step_loadWords_encode (s := { s with port := ahead }) hasm hret hw
    _ = .next { t with port := ahead } := exec_withPort ahead h

/-! ## The words of many commands next on the port -/

theorem run_succ_of_step (k : Nat) (h : step s = .next t) :
    Host.Core.run core (k + 1) s = Host.Core.run core k t := by
  have hcore : core.step s = .next t := h
  simp only [Host.Core.run, hcore]

/-- R67: with the words of a list of commands next on the port, as many steps as there are commands are the commands one
after the other. A reset that stands behind the words waits for as many commands more. -/
theorem run_of_execAll (es : List PortEvent) (hasm : s.asm = []) (hw : ∀ i ∈ is, i.wellFormed = true)
    (h : execAll is s = .next t) (hret : t.retrying = false) :
    Host.Core.run core is.length
        { s with port := (is.flatMap encode).map .word ++ allowOneMore^[is.length] es } =
      .next { t with port := es } := by
  induction is generalizing s with
  | nil =>
    obtain rfl := Host.Outcome.next.inj h
    rfl
  | cons i is ih =>
    obtain ⟨hwi, hwis⟩ := List.forall_mem_cons.1 hw
    obtain ⟨u, hu, ht⟩ := execAll_cons.1 h
    obtain ⟨huasm, -, -⟩ := exec_frame hu
    obtain ⟨-, -, hsret⟩ := execAll_frame h
    rw [List.flatMap_cons, List.map_append, List.append_assoc, List.length_cons, Function.iterate_succ_apply',
      ← allowOneMore_map_word (is.flatMap encode), run_succ_of_step _ (step_encode_ahead _ hasm (hsret hret) hwi hu)]
    exact ih (huasm.trans hasm) hwis ht

/-! ## The statement -/

/-- Settles O13: nothing stands behind the words sent, and the commands leave the idle block's port empty. -/
theorem commandStreamRunsInOrder : Obligations.CommandStreamRunsInOrder := fun is s t hidle hw h hret => by
  obtain ⟨hasm, hport, -⟩ := hidle
  obtain ⟨-, htport, -⟩ := execAll_frame h
  have hrun := run_of_execAll [] hasm hw h hret
  rw [allowOneMore_iterate_nil] at hrun
  have hsend : s.send (is.flatMap encode) = { s with port := (is.flatMap encode).map .word ++ [] } := by
    rw [State.send, hport, List.nil_append, List.append_nil]
  have hend : { t with port := [] } = t := by rw [← hport, ← htport]
  rw [hsend]
  exact hrun.trans (congrArg _ hend)

end Sys2Proof.Machine
end

