-- ==== Sys2Proof/Proofs/Encoding.lean ====
section
/-! PROOF. The classes of a header (spec/30_encoding.md R88): which opcodes name a command, which fields must be zero, and
the one command that a legal header and its payload are; encoded, that command is the header and the payload again. -/

namespace Sys2Proof

variable {i : Instr} {h : Word} {p rest : List Word}

/-! ## Opcodes and payloads -/

/-- An opcode is illegal (R88 a), or one of the seven of R84, here by their formats CA, C1, CV and C0. -/
theorem opcOf_cases (h : Word) :
    (opcOf h = 0 ∨ 8 ≤ (opcOf h).toNat) ∨ opcOf h = 1 ∨ (opcOf h = 2 ∨ opcOf h = 5 ∨ opcOf h = 6 ∨ opcOf h = 7) ∨
      opcOf h = 3 ∨ opcOf h = 4 := by
  generalize opcOf h = o
  bv_omega

/-- Settles O4: the two texts of R83, by the number of the opcode and by its value. -/
theorem payloadCountByOpcode : Obligations.PayloadCountByOpcode := fun h => by
  change payloadCount h = if opcOf h = 2 ∨ opcOf h = 5 ∨ opcOf h = 6 ∨ opcOf h = 7 then 1
    else if opcOf h = 3 then (lenOf h).toNat else 0
  obtain (ho | ho) | ho | (ho | ho | ho | ho) | ho | ho := opcOf_cases h
  case inl.inr =>
    obtain ⟨k, hk⟩ := Nat.exists_eq_add_of_le' ho
    simp [payloadCount, ← BitVec.toNat_inj, hk]
  all_goals simp [payloadCount, ho]

/-- The one payload word of format C1 is the operand (R82). -/
theorem singleton_operandOf (hp : p.length = payloadCount h)
    (ho : opcOf h = 2 ∨ opcOf h = 5 ∨ opcOf h = 6 ∨ opcOf h = 7) : [operandOf p] = p := by
  obtain ⟨x, rfl⟩ := List.length_eq_one_iff.1 (hp.trans ((payloadCountByOpcode h).trans (if_pos ho)))
  rfl

/-- The payload of format CV has as many words as `LEN` says (R83). -/
theorem length_eq_lenOf (hp : p.length = payloadCount h) (ho : opcOf h = 3) : p.length = (lenOf h).toNat := by
  simp [hp, payloadCount, ho]

/-! ## Fields that must be zero -/

/-- The fields that must be zero are zero (R84, R88 b): `RSV` always, `ALGF` unless the command is `SELECT`, `LEN` unless
it is `SEEDV`. -/
abbrev fieldsZero (h : Word) : Prop :=
  rsvOf h = 0 ∧ (opcOf h ≠ 1 → algfOf h = 0) ∧ (opcOf h ≠ 3 → lenOf h = 0)

theorem not_fieldsZero :
    ¬ fieldsZero h ↔ rsvOf h ≠ 0 ∨ (algfOf h ≠ 0 ∧ opcOf h ≠ 1) ∨ (lenOf h ≠ 0 ∧ opcOf h ≠ 3) := by
  rw [fieldsZero]
  tauto

/-- Such a header is made of its opcode and the one field the opcode leaves free. -/
theorem headerOf_of_fieldsZero (hf : fieldsZero h) :
    headerOf (opcOf h) (if opcOf h = 1 then algfOf h else 0) (if opcOf h = 3 then lenOf h else 0) = h := by
  obtain ⟨hrsv, halgf, hlen⟩ := hf
  have ha : (if opcOf h = 1 then algfOf h else 0) = algfOf h := ite_eq_left_iff.2 fun ho => (halgf ho).symm
  have hl : (if opcOf h = 3 then lenOf h else 0) = lenOf h := ite_eq_left_iff.2 fun ho => (hlen ho).symm
  rw [ha, hl]
  exact (eq_headerOf_of_rsv h hrsv).symm

/-! ## The classes of R88 -/

/-- The command that a header with a legal opcode and legal fields is, `p` being its payload (R84). -/
def commandOf (h : Word) (p : List Word) : Instr :=
  if opcOf h = 1 then .select (algfOf h)
  else if opcOf h = 3 then .seedv p
  else if opcOf h = 4 then .next
  else if opcOf h = 2 then .seed (operandOf p)
  else if opcOf h = 5 then .unif64 (operandOf p)
  else if opcOf h = 6 then .unif32 (operandOf p)
  else .uintn (operandOf p)

/-- Class (a). -/
theorem decodeCommand_of_illegal_opcode (p : List Word) (ho : opcOf h = 0 ∨ 8 ≤ (opcOf h).toNat) :
    decodeCommand h p = .error .illegalOpcode := by
  obtain ho | ho := ho
  · simp [decodeCommand, ho]
  · obtain ⟨k, hk⟩ := Nat.exists_eq_add_of_le' ho
    simp [decodeCommand, hk]

/-- Classes (b), (c) and (d). -/
theorem decodeCommand_of_legal_opcode (p : List Word) (ho : ¬ (opcOf h = 0 ∨ 8 ≤ (opcOf h).toNat)) :
    decodeCommand h p = if fieldsZero h then .ok (commandOf h p) else .error .illegalField := by
  obtain hbad | ho | (ho | ho | ho | ho) | ho | ho := opcOf_cases h
  · exact absurd hbad ho
  all_goals simp [decodeCommand, commandOf, fieldsZero, ho]

/-- A command is read from a header of class (c) or (d) only. -/
theorem decodeCommand_eq_ok :
    decodeCommand h p = .ok i ↔ ¬ (opcOf h = 0 ∨ 8 ≤ (opcOf h).toNat) ∧ fieldsZero h ∧ commandOf h p = i := by
  by_cases ho : opcOf h = 0 ∨ 8 ≤ (opcOf h).toNat
  · rw [decodeCommand_of_illegal_opcode p ho]
    exact ⟨nofun, fun hc => absurd ho hc.1⟩
  · rw [decodeCommand_of_legal_opcode p ho]
    split
    · next hf => exact ⟨fun hc => ⟨ho, hf, Except.ok.inj hc⟩, fun ⟨_, _, hc⟩ => congrArg _ hc⟩
    · next hf => exact ⟨nofun, fun ⟨_, hf', _⟩ => absurd hf' hf⟩

/-! ## The command's words -/

/-- Encoding a command gives back the header and the payload it was read from. -/
theorem encode_commandOf (ho : ¬ (opcOf h = 0 ∨ 8 ≤ (opcOf h).toNat)) (hf : fieldsZero h)
    (hp : p.length = payloadCount h) : encode (commandOf h p) = h :: p := by
  have hh := headerOf_of_fieldsZero hf
  obtain hbad | hca | hc1 | hcv | hc0 := opcOf_cases h
  · exact absurd hbad ho
  · obtain rfl : p = [] := List.length_eq_zero_iff.1 (by simp [hp, payloadCount, hca])
    simpa [hca, commandOf, encode] using hh
  · have hop := singleton_operandOf hp hc1
    obtain ho | ho | ho | ho := hc1 <;> simpa [ho, commandOf, encode, hop] using hh
  · have hlen : BitVec.ofNat 16 p.length = lenOf h := by simp [length_eq_lenOf hp hcv]
    simpa [hcv, commandOf, encode, hlen] using hh
  · obtain rfl : p = [] := List.length_eq_zero_iff.1 (by simp [hp, payloadCount, hc0])
    simpa [hc0, commandOf, encode] using hh

/-- A slice is no longer than the 16 bits of `LEN` can say (R86). -/
theorem wellFormed_commandOf (hp : p.length = payloadCount h) : (commandOf h p).wellFormed = true := by
  by_cases ho : opcOf h = 3
  · have hseedv : commandOf h p = .seedv p := by simp [commandOf, ho]
    have hlen := length_eq_lenOf hp ho
    have hlt := (lenOf h).isLt
    rw [hseedv]
    exact decide_eq_true (show p.length ≤ 65535 by omega)
  · unfold commandOf
    split_ifs <;> rfl

/-! ## The statements -/

/-- Settles O1: the encoded header asks for exactly the words encoded after it and classifies as the command. -/
theorem decodeOfEncode : Obligations.DecodeOfEncode := fun _ rest hw => decode_encode_append hw rest

/-- Settles O2: a command is read only from a header of class (c) or (d) with its payload, which are its words. -/
theorem encodeOfDecode : Obligations.EncodeOfDecode := fun ws i rest hd => by
  obtain ⟨h, p, rfl, hp, hc⟩ := decode_eq_ok.1 hd
  obtain ⟨ho, hf, rfl⟩ := decodeCommand_eq_ok.1 hc
  exact ⟨wellFormed_commandOf hp, by rw [encode_commandOf ho hf hp, List.cons_append]⟩

/-- Settles O3: by the classes in their order, and, in the last, the command by its opcode. -/
theorem everyHeaderHasOneClass : Obligations.EveryHeaderHasOneClass := fun h p rest hp => by
  rw [decode_framed h p rest hp]
  by_cases ho : opcOf h = 0 ∨ 8 ≤ (opcOf h).toNat
  · rw [if_pos ho, decodeCommand_of_illegal_opcode p ho]
  · rw [if_neg ho, decodeCommand_of_legal_opcode p ho]
    by_cases hf : fieldsZero h
    · rw [if_pos hf, if_neg (not_fieldsZero.not_right.1 hf), commandOf]
      split_ifs <;> rfl
    · rw [if_neg hf, if_pos (not_fieldsZero.1 hf)]

/-- Settles O5: each legal row is the encoding of its command; the illegal rows are classified by their headers. -/
theorem workedWordsDecode : Obligations.WorkedWordsDecode :=
  have hrow (i : Instr) (hw : i.wellFormed = true) : decode (encode i) = .ok (i, []) := by
    simpa using decode_encode_append hw []
  ⟨hrow (.select 8) rfl, hrow (.select 0) rfl, hrow (.select 9) rfl, hrow (.seed 1387366483214) rfl,
    hrow (.seedv [0x12345, 0x23456, 0x34567, 0x45678]) rfl, hrow (.seedv []) rfl, hrow .next rfl,
    hrow (.unif64 10) rfl, hrow (.unif32 6) rfl, hrow (.uintn 0x100000000) rfl, rfl, rfl, rfl, hrow (.select 10) rfl⟩

end Sys2Proof
end

