-- ==== Sys2Proof/Proofs/CommandCycle.lean ====
section
/-! PROOF. How a turn of the command cycle ends (spec/40_command_contract.md R110): an illegal header is answered, with
the invariant no draw and so no command stops the machine, and a command gives one response unless it is a sampler
command that never ends (spec/30_encoding.md R90, spec/47_sampler.md R247). -/

namespace Sys2Proof.Machine

variable {P : Config.Params} {W : Width} {i : Instr} {s t : State} {g : Generator} {h n : Word} {p rest : List Word}

/-! ## An illegal header -/

/-- R88, R272: with a whole command's words on the port whose header is illegal, a step is the answer to it. -/
theorem step_of_illegal {why : IllegalHeader} (hret : s.retrying = false)
    (hreset : ∀ ahead, portTail s.port ≠ .reset 0 :: ahead) (hw : s.asm ++ portWords s.port = h :: (p ++ rest))
    (hp : p.length = payloadCount h) (hc : decodeCommand h p = .error why) :
    step s = .next ((consumeCommand s rest).raise (illegalStatus why)) := by
  have hd : decode (visibleWords s) = .error (.illegal why rest) := decode_eq_illegal.2 ⟨h, p, hw, hp, hc⟩
  rw [step_of_ready hret hreset, hd]

/-! ## Progress -/

/-- From a generator with the invariant the retry loop stops with no fault, whatever number of passes it may make. -/
theorem retryLoop_ok (P : Config.Params) (W : Width) (n : Word) (k : Nat) (hg : g.inv) :
    ∃ o, retryLoop P W n k g = .ok o := by
  induction k generalizing g with
  | zero => exact ⟨none, rfl⟩
  | succ k ih =>
    obtain ⟨v, g', hd⟩ := draw_ok P g hg.2
    simp only [retryLoop, hd]
    split
    · exact ⟨_, rfl⟩
    · exact ih (draw_seeded hg hd).inv

theorem sample_ok (P : Config.Params) (W : Width) (n : Word) (hg : g.inv) : ∃ o, sample P W n g = .ok o := by
  unfold sample
  split
  · obtain ⟨v, g', hd⟩ := draw_ok P g hg.2
    exact ⟨_, by rw [hd]⟩
  · exact retryLoop_ok P W n passBound hg

theorem sampleCommand_ok (W : Width) (n : Word) (hg : s.gen.inv) : ∃ t, sampleCommand W n s = .next t := by
  obtain ⟨_ | ⟨v, g⟩, hs⟩ := sample_ok hardware W n hg
  · exact ⟨{ s with retrying := true }, by simp only [sampleCommand, hs]⟩
  · exact ⟨_, sampleCommand_of_some hs⟩

/-- A command answers at once, or is `NEXT`, or is a sampler command with a legal bound (R111 to R114, R243 to R245). -/
theorem exec_forms (i : Instr) (s : State) :
    (∃ t, exec i s = .next t ∧ t.retrying = s.retrying) ∨ i = .next ∨
    ∃ W n, (i = .unif64 n ∨ i = .unif32 n ∨ i = .uintn n) ∧ exec i s = sampleCommand W n s := by
  cases i with
  | select algf =>
    simp only [exec, execSelect]
    split <;> exact .inl ⟨_, rfl, rfl⟩
  | seed x => exact .inl ⟨_, rfl, rfl⟩
  | seedv ws =>
    simp only [exec, execSeedv]
    split <;> exact .inl ⟨_, rfl, rfl⟩
  | next => exact .inr (.inl rfl)
  | unif64 n =>
    simp only [exec, execUnif64]
    split
    · exact .inl ⟨_, rfl, rfl⟩
    · exact .inr (.inr ⟨.w64, n, .inl rfl, rfl⟩)
  | unif32 n =>
    simp only [exec, execUnif32]
    split
    · exact .inl ⟨_, rfl, rfl⟩
    · exact .inr (.inr ⟨.w32, n, .inr (.inl rfl), rfl⟩)
  | uintn n =>
    simp only [exec, execUintn]
    split
    · exact .inl ⟨_, rfl, rfl⟩
    · split <;> exact .inr (.inr ⟨_, n, .inr (.inr rfl), rfl⟩)

/-- No command stops a machine whose generator has the invariant (R45, R62). -/
theorem exec_ok (i : Instr) (hg : s.gen.inv) : ∃ t, exec i s = .next t := by
  obtain ⟨t, hx, -⟩ | rfl | ⟨W, n, -, hx⟩ := exec_forms i s
  · exact ⟨t, hx⟩
  · obtain ⟨v, g, hd⟩ := draw_ok hardware s.gen hg.2
    exact ⟨_, execNext_of_draw hd⟩
  · rw [hx]
    exact sampleCommand_ok W n hg

/-! ## A command that never ends -/

theorem ne_zero_of_isPowerOfTwo_eq_false (hn : isPowerOfTwo n = false) : n ≠ 0 := by
  rintro rfl
  exact absurd hn (by decide)

/-- Only the sampler makes a command one that never ends, and only for a bound that is no power of two (R247). -/
theorem sampleCommand_retrying (hs : s.retrying = false) (ht : t.retrying = true) (hx : sampleCommand W n s = .next t) :
    ∀ j, n.toNat ≠ 2 ^ j := by
  obtain ⟨v, g, -, rfl⟩ | ⟨hnone, -⟩ := sampleCommand_cases hx
  · exact absurd (hs.symm.trans ht) nofun
  · obtain ⟨hpow, -⟩ := sample_eq_none.1 hnone
    exact (isPowerOfTwo_eq_false (ne_zero_of_isPowerOfTwo_eq_false hpow)).1 hpow

theorem execNext_retrying (hx : execNext s = .next t) : t.retrying = s.retrying := by
  unfold execNext at hx
  split at hx
  · obtain rfl := Host.Outcome.next.inj hx
    rfl
  · cases hx

theorem exec_retrying (hs : s.retrying = false) (ht : t.retrying = true) (hx : exec i s = .next t) :
    ∃ n : Word, (i = .unif64 n ∨ i = .unif32 n ∨ i = .uintn n) ∧ ∀ j, n.toNat ≠ 2 ^ j := by
  have hne : t.retrying ≠ s.retrying := by simp [hs, ht]
  obtain ⟨u, hxu, hu⟩ | rfl | ⟨W, n, hi, hxs⟩ := exec_forms i s
  · obtain rfl := Host.Outcome.next.inj (hx.symm.trans hxu)
    exact absurd hu hne
  · exact absurd (execNext_retrying hx) hne
  · exact ⟨n, hi, sampleCommand_retrying hs ht (hxs.symm.trans hx)⟩

/-! ## The statements -/

/-- Settles O7: the words are of class (a) or of class (b) of R88, and what answers either is one lemma. -/
theorem illegalHeaderIsAnswered : Obligations.IllegalHeaderIsAnswered := fun s h p rest hret hreset hw hp => by
  refine ⟨fun ho => step_of_illegal hret hreset hw hp (decodeCommand_of_illegal_opcode p ho), ?_⟩
  rintro ⟨hlow, hhigh, hf⟩
  have ho : ¬ (opcOf h = 0 ∨ 8 ≤ (opcOf h).toNat) := by bv_omega
  exact step_of_illegal hret hreset hw hp
    ((decodeCommand_of_legal_opcode p ho).trans (if_neg (not_fieldsZero.2 hf)))

/-- Settles O50: of the branches of a step only a command could stop, and taking its words leaves the generator. -/
theorem stepNeverStops : Obligations.StepNeverStops := fun s hs => by
  unfold stepsOn step
  split
  · exact ⟨_, rfl⟩
  · split
    · next i rest _ => exact exec_ok i (consumeCommand_inv hs rest).1
    · exact ⟨_, rfl⟩
    · exact ⟨_, rfl⟩

/-- Settles O52: a command responds, faults or never ends, and only the last leaves no response. -/
theorem oneResponsePerCommand : Obligations.OneResponsePerCommand := fun i s t hret hx => by
  obtain ⟨hasm, hport, -⟩ := exec_frame hx
  refine ⟨hasm, hport, ?_⟩
  obtain ⟨g, v, rfl⟩ | ⟨f, -, rfl⟩ | ⟨-, rfl⟩ := exec_cases hx
  · exact .inl ⟨hret, _, respond_out ..⟩
  · exact .inl ⟨hret, _, raise_out ..⟩
  · exact .inr ⟨rfl, rfl, rfl, exec_retrying hret rfl hx⟩

end Sys2Proof.Machine
end

section
/-! PROOF. The contract of the commands (spec/40_command_contract.md): a whole command on the port is one turn of the
command cycle (R110), `SELECT` makes a fresh generator of its algorithm (R111), seeding leaves nothing of the generator
there was before (R112, R113), and a command that reads the generator leaves it as some number of draws does (R117). -/

namespace Sys2Proof.Machine

variable {P : Config.Params} {W : Width} {i : Instr} {s t : State} {g g' h h' : Generator} {v n : Word} {ws : List Word}

/-! ## `SELECT` -/

@[simp] theorem algOfNumber_algNumber (a : Alg) : algOfNumber (algNumber a) = some a := by
  cases a <;> rfl

/-- The numbers 10 to 15 are reserved, and no others (R85). -/
theorem algOfNumber_eq_none {algf : BitVec 4} : algOfNumber algf = none ↔ 10 ≤ algf.toNat := by
  revert algf
  decide

/-- Only MT64, whose number is 8, starts at a marker (R111, R201). -/
theorem freshGenerator_cur (a : Alg) : (freshGenerator a).cur = if algNumber a = 8 then mtUnseeded else 0 := by
  cases a <;> rfl

theorem exec_select_of_some {algf : BitVec 4} {a : Alg} (s : State) (ha : algOfNumber algf = some a) :
    exec (.select algf) s = .next ((s.withGen (freshGenerator a)).respond 0) := by
  simp only [exec, execSelect, ha]

theorem exec_select_of_none {algf : BitVec 4} (s : State) (ha : algOfNumber algf = none) :
    exec (.select algf) s = .next (s.raise .algReserved) := by
  simp only [exec, execSelect, ha]

/-! ## Generators that differ in nothing the algorithm uses -/

/-- With the words the algorithm does not use zero, a generator is `ALG`, the words it uses, and `CUR` (R34). -/
theorem eq_of_usedWords (hg : tailZero g) (hh : tailZero h) (ha : g.alg = h.alg)
    (hS : ∀ (i : Nat) (hi : i < 312), i < stateWords g.alg → g.S[i] = h.S[i]) (hc : g.cur = h.cur) : g = h := by
  have hwords : g.S = h.S := Vector.ext fun i hi => by
    by_cases hn : i < stateWords g.alg
    · exact hS i hi hn
    · rw [hg i hi (by omega), hh i hi (by rw [← ha]; omega)]
  obtain ⟨a, S, c⟩ := g
  obtain ⟨b, T, d⟩ := h
  rw [Generator.mk.injEq]
  exact ⟨ha, hwords, hc⟩

/-! ## Scalar seeding -/

/-- One step of the fill of R202 reads no word but the one before, and leaves every other word. -/
theorem mtFillAt_agree {i : Fin 312} (hi : i ≠ 0) {S T : Words}
    (hST : ∀ (j : Nat) (hj : j < 312), j < i.val → S[j] = T[j]) :
    ∀ (j : Nat) (hj : j < 312), j < i.val + 1 → (mtFillAt i S)[j] = (mtFillAt i T)[j] := fun j hj hle => by
  have hprev : S[i - 1] = T[i - 1] := by
    have hv := sub_one_val i hi
    have hpos : i.val ≠ 0 := fun e => hi (Fin.ext e)
    exact hST (i - 1).val (i - 1).isLt (by omega)
  by_cases hji : j = i.val
  · subst hji
    simp [mtFillAt, hprev]
  · have hij : i.val ≠ j := Ne.symm hji
    simpa [mtFillAt, hij] using hST j hj (by omega)

/-- After `k` steps of the fill the words 0 to `k` depend on word 0 only. -/
theorem forWords_mtFillAt_agree {S T : Words} (hST : S[0] = T[0]) (k : Nat) (hk : k ≤ 311) :
    ∀ (j : Nat) (hj : j < 312), j < k + 1 → (forWords mtFillAt k 1 S)[j] = (forWords mtFillAt k 1 T)[j] := by
  induction k with
  | zero =>
    intro j hj hlt
    obtain rfl : j = 0 := by omega
    exact hST
  | succ k ih =>
    have hindex : ((1 : Fin 312) + Fin.ofNat 312 k).val = k + 1 := by
      rw [Fin.val_add]
      simp
      omega
    have hne : (1 : Fin 312) + Fin.ofNat 312 k ≠ 0 := fun e => by
      rw [e] at hindex
      exact Nat.succ_ne_zero k hindex.symm
    have hstep := mtFillAt_agree hne fun j hj hlt => ih (by omega) j hj (by omega)
    rw [hindex] at hstep
    simpa only [forWords_succ_last] using hstep

/-- The fill writes every word from the seed (R202). -/
theorem mtFillWords_forgets (x : Word) (S T : Words) : mtFillWords x S = mtFillWords x T := by
  unfold mtFillWords
  have hzero (U : Words) : (U.set 0 (if x = 0 then mtDefaultSeed else x))[0] = if x = 0 then mtDefaultSeed else x :=
    Vector.getElem_set_self ..
  exact Vector.ext fun j hj =>
    forWords_mtFillAt_agree ((hzero S).trans (hzero T).symm) 311 (by omega) j hj (by omega)

theorem mtFill_S_forgets (x : Word) (g h : Generator) : (mtFill x g).S = (mtFill x h).S := by
  simp only [mtFill, mtFillWords_forgets x g.S h.S]

/-- A list written at word 0 leaves nothing of the words there were in its place. -/
theorem writeWords_inside_forgets (S T : Words) {j : Nat} (hj : j < 312) (hlt : j < ws.length) :
    (writeWords S 0 ws)[j] = (writeWords T 0 ws)[j] := by
  rw [writeWords_zero_lt ws S j hj hlt, writeWords_zero_lt ws T j hj hlt]

/-- Scalar seeding writes every word the algorithm uses from the seed (R151, R161, R180, R202, R231). -/
theorem seedScalar_usedWords_forgets (x : Word) (ha : g.alg = h.alg) (j : Nat) (hj : j < 312)
    (hn : j < stateWords g.alg) : (seedScalar P x g).S[j] = (seedScalar P x h).S[j] := by
  unfold seedScalar
  rw [← ha]
  split
  case h_1 hg =>
    simp only [hg, stateWords] at hn
    obtain rfl : j = 0 := by omega
    simp [seedSm64]
  case h_9 => rw [mtFill_S_forgets x g h]
  all_goals
    rename_i hg
    simp only [hg, stateWords] at hn
    simp only [seedXorshift, seedXoroshiro, seedPcg, ← ha, hg, stateWords]
    exact writeWords_inside_forgets _ _ hj (by simpa using hn)

/-- Where `CUR` is not written, the invariant has it at 0 (R45 e). -/
theorem seedScalar_cur_of_legal (x : Word) (hg : cursorLegal g) :
    (seedScalar P x g).cur = if g.alg = .mt64 then mtExhausted else 0 := by
  have hc := seedScalar_cur P x g
  by_cases hm : g.alg = .mt64
  · simpa [hm, mtExhausted] using hc
  by_cases hx : g.alg = .xs1024s
  · simpa [hx] using hc
  · rw [hc, (cursorLegal_other hx hm).1 hg, if_neg hm]
    split
    case h_4 ha => exact absurd ha hm
    all_goals rfl

/-- R112: the generator after `SEED` depends on `ALG` and the seed only. -/
theorem seedScalar_forgets (x : Word) (hg : g.inv) (hh : h.inv) (ha : g.alg = h.alg) :
    seedScalar P x g = seedScalar P x h := by
  refine eq_of_usedWords (seedScalar_seeded hg x).1 (seedScalar_seeded hh x).1 (by simp [ha]) (fun j hj hn => ?_) ?_
  · exact seedScalar_usedWords_forgets x ha j hj (by simpa using hn)
  · rw [seedScalar_cur_of_legal x hg.2, seedScalar_cur_of_legal x hh.2, ha]

/-! ## Slice seeding -/

/-- The mixing of R203 starts from the words of a fill, so from nothing of the old ones. -/
theorem seedSliceMt_S_forgets (ws : List Word) (g h : Generator) : (seedSliceMt ws g).S = (seedSliceMt ws h).S := by
  simp only [seedSliceMt, mtFill_S_forgets 19650218 g h]

/-- Slice seeding writes every word the algorithm uses from the slice (R162, R203). -/
theorem seedSlice_usedWords_forgets (ha : g.alg = h.alg) (hg : seedSlice ws g = some g') (hh : seedSlice ws h = some h')
    (j : Nat) (hj : j < 312) (hn : j < stateWords g.alg) : g'.S[j] = h'.S[j] := by
  unfold seedSlice at hg hh
  rw [← ha] at hh
  split at hg
  case h_2 halg | h_3 halg | h_4 halg =>
    simp only [halg] at hh
    obtain rfl := Option.some.inj hg
    obtain rfl := Option.some.inj hh
    simp only [seedSliceXorshift, ← ha]
    exact writeWords_inside_forgets _ _ hj (by simpa using hn)
  case h_9 halg =>
    simp only [halg] at hh
    obtain rfl := Option.some.inj hg
    obtain rfl := Option.some.inj hh
    rw [seedSliceMt_S_forgets ws g h]
  all_goals cases hg

/-- Slice seeding writes `CUR` too (R162, R203). -/
theorem seedSlice_cur (hg : seedSlice ws g = some g') : g'.cur = if g.alg = .mt64 then mtExhausted else 0 := by
  obtain ⟨-, -, ⟨hx, hc⟩ | ⟨hm, hc⟩⟩ := seedSlice_cases hg
  · rw [hc, if_neg (by rintro hm; simp [hm] at hx)]
  · rw [hc, if_pos hm, mtExhausted]

/-- R113: the generator after a successful `SEEDV` depends on `ALG` and the slice only. -/
theorem seedSlice_forgets (hg : g.inv) (hh : h.inv) (ha : g.alg = h.alg) (hsg : seedSlice ws g = some g')
    (hsh : seedSlice ws h = some h') : g' = h' := by
  obtain ⟨hga, -, -⟩ := seedSlice_cases hsg
  obtain ⟨hha, -, -⟩ := seedSlice_cases hsh
  refine eq_of_usedWords (seedSlice_seeded hg hsg).1 (seedSlice_seeded hh hsh).1 (by rw [hga, hha, ha])
    (fun j hj hn => ?_) (by rw [seedSlice_cur hsg, seedSlice_cur hsh, ha])
  exact seedSlice_usedWords_forgets ha hsg hsh j hj (by rwa [hga] at hn)

/-- With an algorithm that has slice seeding `SEEDV` leaves the generator it makes (R113). -/
theorem seedSlice_of_execSeedv
    (ha : s.gen.alg = .xs64s ∨ s.gen.alg = .xs128p ∨ s.gen.alg = .xs1024s ∨ s.gen.alg = .mt64)
    (hx : exec (.seedv ws) s = .next t) : seedSlice ws s.gen = some t.gen := by
  simp only [exec, execSeedv] at hx
  split at hx
  · next g hg =>
    obtain rfl := Host.Outcome.next.inj hx
    exact hg
  · next hnone =>
    obtain ha | ha | ha | ha := ha <;> simp [seedSlice, ha] at hnone

/-! ## Draws -/

/-- A sampler command that takes effect answers a value its sampler gives (R243 to R245). -/
theorem Effect.sample (he : Effect i g v g') (hi : i = .unif64 n ∨ i = .unif32 n ∨ i = .uintn n) :
    ∃ W, sample hardware W n g = .ok (some (v, g')) := by
  cases he with
  | @sampler _ m _ W _ _ hm hs =>
    obtain rfl : n = m := by obtain rfl | rfl | rfl := hi <;> simpa using hm
    exact ⟨W, hs⟩
  | _ => simp at hi

theorem afterDraws_one (hd : draw P g = .ok (v, g')) : afterDraws P 1 g = .ok g' :=
  afterDraws_of_drawNth (k := 0) hd

/-- R246: a sample takes at least one draw. -/
theorem afterDraws_of_sample (hs : sample P W n g = .ok (some (v, g'))) :
    ∃ k, 1 ≤ k ∧ afterDraws P k g = .ok g' := by
  obtain ⟨-, u, hd, -⟩ | ⟨-, k, -, u, ⟨hd, -⟩, -⟩ := sample_eq_some.1 hs
  · exact ⟨1, le_refl 1, afterDraws_one hd⟩
  · exact ⟨k + 1, by omega, afterDraws_of_drawNth hd⟩

/-- R246: a sample below a power of two takes exactly one draw. -/
theorem afterDraws_of_sample_pow (hs : sample P W n g = .ok (some (v, g'))) (hn : ∃ j, n.toNat = 2 ^ j) :
    afterDraws P 1 g = .ok g' := by
  have hne : n ≠ 0 := by
    rintro rfl
    obtain ⟨j, hj⟩ := hn
    exact (Nat.two_pow_pos j).ne hj
  have hpow := (isPowerOfTwo_iff hne).2 hn
  obtain ⟨-, u, hd, -⟩ | ⟨hfalse, -⟩ := sample_eq_some.1 hs
  · exact afterDraws_one hd
  · exact absurd hpow (by simp [hfalse])

/-! ## The statements -/

/-- Settles O22: by the two kinds of seeding, each of which forgets the words and the `CUR` there were. -/
theorem seedingForgetsTheOldState : Obligations.SeedingForgetsTheOldState := fun s s' t t' i hs hs' ha hi hx hx' => by
  obtain ⟨w, rfl⟩ | ⟨ws, rfl, hslice⟩ := hi
  · obtain rfl := Host.Outcome.next.inj hx
    obtain rfl := Host.Outcome.next.inj hx'
    exact seedScalar_forgets w hs.1 hs'.1 ha
  · exact seedSlice_forgets hs.1 hs'.1 ha (seedSlice_of_execSeedv hslice hx)
      (seedSlice_of_execSeedv (ha ▸ hslice) hx')

/-- Settles O53: what a command that takes effect does to the generator is a draw, or what its sampler draws. -/
theorem drawsAccountForTheState : Obligations.DrawsAccountForTheState := fun i s t v hx ho => by
  have heffect := effect_of_exec hx ho
  constructor
  · rintro rfl
    cases heffect with
    | next hd => exact afterDraws_one hd
    | sampler hi => simp at hi
  · intro n hi
    obtain ⟨W, hs⟩ := heffect.sample hi
    exact ⟨afterDraws_of_sample hs, afterDraws_of_sample_pow hs⟩

/-- Settles O12: on an idle block the words sent are all there is, as if they had been loaded. -/
theorem oneCommandIsOneStep : Obligations.OneCommandIsOneStep := fun s i hidle hw => by
  obtain ⟨hasm, hport, hret⟩ := hidle
  have hsend : s.sendCommand i = loadWords s (encode i) := by
    rw [loadWords_of_ready hasm hret, State.sendCommand, State.send, hport]
    simp [allowOneMore]
  rw [hsend]
  exact step_loadWords_encode hasm hret hw

/-- Settles O6: the branch of the command cycle for words that hold a command. -/
theorem stepRunsTheDecodedCommand : Obligations.StepRunsTheDecodedCommand := fun s i rest hret hreset hd => by
  have hvisible : decode (visibleWords s) = .ok (i, rest) := hd
  rw [step_of_ready hret hreset, hvisible]
  rfl

/-- Settles O8: the branch of the command cycle for words that hold no whole command, with no reset to take. -/
theorem waitsForTheWholeCommand : Obligations.WaitsForTheWholeCommand := fun s hret hd htail => by
  have hvisible : decode (visibleWords s) = .error .incomplete := hd
  rw [step_of_ready hret (by simp [htail]), hvisible]
  obtain ⟨-, hwait⟩ | ⟨k, ahead, hreset, -⟩ := awaitWords_cases s
  · exact congrArg _ hwait
  · simp [htail] at hreset

/-- Settles O14: a number names its algorithm, and the numbers that name none are the reserved ones. -/
theorem selectMakesAFreshInstance : Obligations.SelectMakesAFreshInstance := by
  refine ⟨fun s a => ?_, fun s algf hres => ?_, fun algf hlt => ?_⟩
  · have hfresh : freshGenerator a =
        { alg := a, S := Vector.replicate 312 0, cur := if algNumber a = 8 then 313 else 0 } := by
      rw [← mtUnseeded, ← freshGenerator_cur]
      rfl
    rw [exec_select_of_some s (algOfNumber_algNumber a), hfresh]
    rfl
  · exact exec_select_of_none s (algOfNumber_eq_none.2 hres)
  · have hsome : algOfNumber algf ≠ none := fun hnone => by
      have hres := algOfNumber_eq_none.1 hnone
      omega
    obtain ⟨a, ha⟩ := Option.ne_none_iff_exists'.1 hsome
    exact ⟨a, (algOfNumber_eq_some ha).symm⟩

end Sys2Proof.Machine
end

section
/-! PROOF. When a seed expansion is all-zero (spec/41_seed_expansion.md R142): the output function of splitmix64 gives 0
for the state 0 only (spec/42_splitmix64.md R154), so the states of the private splitmix64 decide. -/

namespace Sys2Proof.Machine

/-! ## The output function -/

/-- A word that equals itself shifted right has no highest one bit. -/
theorem xor_ushiftRight_eq_zero_iff {w : Nat} (x : BitVec w) {k : Nat} (hk : 0 < k) : x ^^^ (x >>> k) = 0 ↔ x = 0 := by
  constructor
  · intro h
    have hfix : x.toNat / 2 ^ k = x.toNat := by
      rw [← Nat.shiftRight_eq_div_pow, ← BitVec.toNat_ushiftRight, ← BitVec.xor_eq_zero_iff.1 h]
    have hzero : x.toNat = 0 :=
      (Nat.div_eq_self.1 hfix).resolve_right (Nat.one_lt_two_pow hk.ne').ne'
    exact BitVec.eq_of_toNat_eq hzero
  · rintro rfl
    simp

/-- Both multipliers of R150 are odd, so each has an inverse modulo `2 ^ 64`. -/
theorem smMultipliers_isUnit : IsUnit (0xBF58476D1CE4E5B9 : Word) ∧ IsUnit (0x94D049BB133111EB : Word) :=
  ⟨IsUnit.of_mul_eq_one 0x96DE1B173F119089 (by decide), IsUnit.of_mul_eq_one 0x319642B2D24D8EC3 (by decide)⟩

/-- R154: the state 0 is the only one with the output 0. -/
theorem smMix_eq_zero_iff (z : Word) : smMix z = 0 ↔ z = 0 := by
  obtain ⟨hfirst, hsecond⟩ := smMultipliers_isUnit
  simp only [smMix, xor_ushiftRight_eq_zero_iff _ (show 0 < 31 by omega), hsecond.mul_left_eq_zero,
    xor_ushiftRight_eq_zero_iff _ (show 0 < 27 by omega), hfirst.mul_left_eq_zero,
    xor_ushiftRight_eq_zero_iff _ (show 0 < 30 by omega)]

/-! ## Expansions -/

/-- Word `k` of an expansion is 0 exactly if the private splitmix64 has come to the state 0. -/
theorem expandScalar_getElem_eq_zero_iff (z : Word) (n k : Nat) (h : k < (expandScalar z n).length) :
    (expandScalar z n)[k] = 0 ↔ z + BitVec.ofNat 64 (k + 1) * smIncrement = 0 := by
  rw [expandScalar_getElem, smMix_eq_zero_iff]

/-- Two states in a row differ by the increment, so they are not both 0 (R142 a). -/
theorem expandScalar_exists_ne_zero (z : Word) {n : Nat} (hn : 2 ≤ n) : ∃ w ∈ expandScalar z n, w ≠ 0 := by
  by_contra! hall
  have hstate (k : Nat) (hk : k < n) : z + BitVec.ofNat 64 (k + 1) * smIncrement = 0 :=
    (expandScalar_getElem_eq_zero_iff z n k (by simpa using hk)).1 (hall _ (List.getElem_mem _))
  have hsame := add_left_cancel ((hstate 0 (by omega)).trans (hstate 1 (by omega)).symm)
  exact absurd hsame (by decide)

/-- The seed that the increment takes to the state 0 (R142 b). -/
theorem expandScalar_one_eq_zero_iff (z : Word) : expandScalar z 1 = [0] ↔ z = 0x61C8864680B583EB := by
  have hseed : (0x61C8864680B583EB : Word) = -smIncrement := by decide
  rw [hseed, eq_neg_iff_add_eq_zero, ← smMix_eq_zero_iff]
  simp [expandScalar, sm]

/-- From the seed 0 the first word is not 0. -/
theorem expandScalar_zero_exists_ne_zero {n : Nat} (hn : 0 < n) : ∃ w ∈ expandScalar 0 n, w ≠ 0 := by
  have hlen : 0 < (expandScalar 0 n).length := by simpa using hn
  refine ⟨(expandScalar 0 n)[0], List.getElem_mem hlen, fun hzero => ?_⟩
  exact absurd ((expandScalar_getElem_eq_zero_iff 0 n 0 hlen).1 hzero) (by decide)

/-- A slice shorter than the state is copied whole and expanded from its last word (R141). -/
theorem expandSlice_short (ws : List Word) (n : Nat) (h : ws.length ≤ n) :
    expandSlice ws n = ws ++ expandScalar (ws.getLastD 0) (n - ws.length) := by
  simp only [expandSlice, List.take_of_length_le h]

/-- If the words copied are all 0, the rest is expanded from 0 (R142 d). -/
theorem expandSlice_short_exists_ne_zero (ws : List Word) {n : Nat} (h : ws.length < n) :
    ∃ w ∈ expandSlice ws n, w ≠ 0 := by
  rw [expandSlice_short ws n h.le]
  by_cases hcopied : ∃ w ∈ ws, w ≠ 0
  · obtain ⟨w, hw, hne⟩ := hcopied
    exact ⟨w, List.mem_append_left _ hw, hne⟩
  · push Not at hcopied
    have hlast : ws.getLastD 0 = 0 := by
      obtain rfl | hne := eq_or_ne ws []
      · rfl
      · rw [List.getLastD_eq_getLast?, List.getLast?_eq_some_getLast hne]
        exact hcopied _ (List.getLast_mem hne)
    obtain ⟨w, hw, hne⟩ := expandScalar_zero_exists_ne_zero (n := n - ws.length) (by omega)
    exact ⟨w, List.mem_append_right _ (by rwa [hlast]), hne⟩

/-! ## The statement -/

/-- Settles O38: a scalar by the states of the private splitmix64, a slice by what is copied and the last copied word. -/
theorem expansionAllZeroCases : Obligations.ExpansionAllZeroCases :=
  ⟨fun s _ hn _ => expandScalar_exists_ne_zero s hn, expandScalar_one_eq_zero_iff,
    fun ws n hn => by rw [expandSlice_long ws n hn], fun ws _ hn => expandSlice_short_exists_ne_zero ws hn⟩

end Sys2Proof.Machine
end

section
/-! PROOF. splitmix64 as the generator of ALG 0 (spec/42_splitmix64.md): its commands, the bijection from state to
output, and the sequence of its states (R154); and with it the algorithms that refuse a slice (R113). -/

namespace Sys2Proof.Machine

variable {P : Config.Params} {g : Generator}

/-! ## Seeding and drawing by algorithm -/

/-- The algorithms without slice seeding (R153, R187, R233). -/
theorem seedSlice_eq_none_iff (ws : List Word) : seedSlice ws g = none ↔
    g.alg = .sm64 ∨ g.alg = .xo128p ∨ g.alg = .xo128ss ∨ g.alg = .xo256p ∨ g.alg = .xo256ss ∨ g.alg = .pcg := by
  unfold seedSlice
  split <;> simp [*]

/-- A slice the algorithm has no use for is a fault (R113). -/
theorem exec_seedv_of_none {s : State} {ws : List Word} (h : seedSlice ws s.gen = none) :
    exec (.seedv ws) s = .next (s.raise .seedvUnsupported) := by
  simp only [exec, execSeedv, h]

theorem seedScalar_sm64 (x : Word) (ha : g.alg = .sm64) : seedScalar P x g = { g with S := g.S.set 0 x } := by
  simp only [seedScalar, ha, seedSm64]

/-- R152: the sum becomes the state, and a copy of it is mixed. -/
theorem draw_sm64 (ha : g.alg = .sm64) : draw P g =
    .ok (smMix (g.S[0] + smIncrement), { g with S := g.S.set 0 (g.S[0] + smIncrement) }) := by
  simp only [draw, ha, drawSm64, sm]

/-! ## The output function -/

/-- Shifting right and xor are linear over the bits, so this map, which has no word but 0 in its kernel, merges no two
words. -/
theorem xor_ushiftRight_injective {w k : Nat} (hk : 0 < k) :
    Function.Injective fun x : BitVec w => x ^^^ (x >>> k) := fun x y hxy => by
  have hlinear : (x ^^^ y) ^^^ ((x ^^^ y) >>> k) = (x ^^^ (x >>> k)) ^^^ (y ^^^ (y >>> k)) := by
    rw [BitVec.ushiftRight_xor_distrib]
    ac_rfl
  have hkernel : (x ^^^ y) ^^^ ((x ^^^ y) >>> k) = 0 := hlinear.trans (BitVec.xor_eq_zero_iff.2 hxy)
  exact BitVec.xor_eq_zero_iff.1 ((xor_ushiftRight_eq_zero_iff _ hk).1 hkernel)

/-- Each of the five stages of the mixing is injective (R154). -/
theorem smMix_injective : Function.Injective smMix := by
  obtain ⟨hfirst, hsecond⟩ := smMultipliers_isUnit
  exact (xor_ushiftRight_injective (show 0 < 31 by omega)).comp <| hsecond.mul_left_injective.comp <|
    (xor_ushiftRight_injective (show 0 < 27 by omega)).comp <| hfirst.mul_left_injective.comp <|
    xor_ushiftRight_injective (show 0 < 30 by omega)

/-- Settles O36: on finitely many words an injective map is a bijection. -/
theorem splitMixOutputIsBijective : Obligations.SplitMixOutputIsBijective :=
  ⟨Finite.injective_iff_bijective.1 smMix_injective, (smMix_eq_zero_iff 0).2 rfl⟩

/-! ## The sequence of states -/

/-- The increment of R150 is odd, so it has an inverse modulo `2 ^ 64`. -/
theorem smIncrement_isUnit : IsUnit smIncrement := IsUnit.of_mul_eq_one 0xF1DE83E19937733D (by decide)

/-- R152: every draw adds the increment to the state word. -/
theorem afterDraws_sm64 (k : Nat) (ha : g.alg = .sm64) :
    ∃ g', afterDraws P k g = .ok g' ∧ g'.S[0] = g.S[0] + BitVec.ofNat 64 k * smIncrement := by
  induction k generalizing g with
  | zero => exact ⟨g, afterDraws_zero g, by simp⟩
  | succ k ih =>
    obtain ⟨g', hdraws, hstate⟩ := ih (g := { g with S := g.S.set 0 (g.S[0] + smIncrement) }) ha
    refine ⟨g', (afterDraws_succ_of_ok (draw_sm64 ha) k).trans hdraws, ?_⟩
    calc g'.S[0]
        = g.S[0] + smIncrement + BitVec.ofNat 64 k * smIncrement := by rw [hstate, Vector.getElem_set_self]
      _ = g.S[0] + BitVec.ofNat 64 (k + 1) * smIncrement := by
        rw [BitVec.ofNat_add, BitVec.add_mul, BitVec.one_mul]
        ac_rfl

/-- R154: the period is exactly `2 ^ 64`, the increment being invertible. -/
theorem mul_smIncrement_eq_zero_iff (k : Nat) : BitVec.ofNat 64 k * smIncrement = 0 ↔ 2 ^ 64 ∣ k := by
  rw [smIncrement_isUnit.mul_left_eq_zero, ← BitVec.toNat_inj, BitVec.toNat_ofNat, Nat.dvd_iff_mod_eq_zero]
  rfl

/-- Settles O37: `k` draws add `k` increments, which is nothing exactly at the multiples of the period. -/
theorem splitMixStateSequence : Obligations.SplitMixStateSequence := fun P g k ha => by
  obtain ⟨g', hdraws, hstate⟩ := afterDraws_sm64 (P := P) k ha
  refine ⟨g', hdraws, hstate, ?_⟩
  rw [hstate, add_eq_left, mul_smIncrement_eq_zero_iff]

/-! ## The commands -/

/-- Settles O15: `SEED` answers with the generator that scalar seeding makes. -/
theorem seedSplitMixStoresTheSeed : Obligations.SeedSplitMixStoresTheSeed := fun s w ha => by
  rw [← seedScalar_sm64 (P := hardware) w ha]
  rfl

/-- Settles O21: the six algorithms are those without slice seeding. -/
theorem seedvUnsupportedFaults : Obligations.SeedvUnsupportedFaults := fun _ ws ha =>
  exec_seedv_of_none ((seedSlice_eq_none_iff ws).2 ha)

/-- Settles O23: the words named in the statement are the stages of `smMix`. -/
theorem nextSplitMix : Obligations.NextSplitMix := by
  rintro s ha _ _ _ _ rfl rfl rfl rfl
  exact execNext_of_draw (draw_sm64 ha)

end Sys2Proof.Machine
end

section
/-! PROOF. The xorshift family, ALG 1 to 3 (spec/43_xorshift.md): seeding from a scalar and from a slice, the three draws,
and the all-zero state, which no draw enters or leaves; with it the all-zero state of ALG 4 to 7
(spec/44_xoroshiro_xoshiro.md R188). -/

namespace Sys2Proof.Machine

variable {P : Config.Params} {g g' : Generator} {v : Word}

/-! ## Seeding -/

/-- The word counts the statements give for the xorshift algorithms are those of R32. -/
theorem xorshift_of_wordCount {a : Alg} {N : Nat}
    (h : a = .xs64s ∧ N = 1 ∨ a = .xs128p ∧ N = 2 ∨ a = .xs1024s ∧ N = 16) :
    (a = .xs64s ∨ a = .xs128p ∨ a = .xs1024s) ∧ N = stateWords a := by
  obtain ⟨rfl, rfl⟩ | ⟨rfl, rfl⟩ | ⟨rfl, rfl⟩ := h <;> simp [stateWords]

theorem seedScalar_xorshift (x : Word) (ha : g.alg = .xs64s ∨ g.alg = .xs128p ∨ g.alg = .xs1024s) :
    seedScalar P x g = seedXorshift P x g := by
  obtain ha | ha | ha := ha <;> simp only [seedScalar, ha]

theorem seedSlice_xorshift (ws : List Word) (ha : g.alg = .xs64s ∨ g.alg = .xs128p ∨ g.alg = .xs1024s) :
    seedSlice ws g = some (seedSliceXorshift ws g) := by
  obtain ha | ha | ha := ha <;> simp only [seedSlice, ha]

/-- `SEEDV` with a slice the algorithm takes leaves the generator made from it (R113). -/
theorem exec_seedv_of_some {s : State} (h : seedSlice ws s.gen = some g) :
    exec (.seedv ws) s = .next ((s.withGen g).respond 0) := by
  simp only [exec, execSeedv, h]

/-- A word the slice has is copied; the others are the outputs of a splitmix64 that starts at the slice's last word, or
at 0 (R141). -/
theorem expandSlice_getElem (ws : List Word) (n k : Nat) (h : k < (expandSlice ws n).length) :
    (expandSlice ws n)[k] = if hw : k < ws.length then ws[k]
      else smMix (ws.getLastD 0 + BitVec.ofNat 64 (k - ws.length + 1) * smIncrement) := by
  have hk : k < n := by simpa using h
  split
  case isTrue hw => exact expandSlice_copied ws n k hk hw
  case isFalse hw =>
    simp only [expandSlice_short ws n (by omega), List.getElem_append_right (show ws.length ≤ k by omega),
      expandScalar_getElem]

/-- The words after scalar seeding, a zero seed remapped (R161, R143). -/
theorem seedXorshift_getElem (x : Word) (i : Nat) (hi : i < 312) :
    (seedXorshift P x g).S[i] =
      if i < stateWords g.alg then
        smMix ((if x = 0 then P.seedDefault else x) + BitVec.ofNat 64 (i + 1) * smIncrement)
      else g.S[i] := by
  by_cases hn : i < stateWords g.alg
  · rw [if_pos hn, seedXorshift, writeWords_zero_lt _ _ _ _ (by simpa using hn), expandScalar_getElem]
  · rw [if_neg hn]
    exact writeWords_zero_ge _ _ _ _ (by simpa using hn)

/-- The words after slice seeding (R162). -/
theorem seedSliceXorshift_getElem (ws : List Word) (i : Nat) (hi : i < 312) :
    (seedSliceXorshift ws g).S[i] =
      if i < stateWords g.alg then
        (if hw : i < ws.length then ws[i]
         else smMix (ws.getLastD 0 + BitVec.ofNat 64 (i - ws.length + 1) * smIncrement))
      else g.S[i] := by
  by_cases hn : i < stateWords g.alg
  · rw [if_pos hn, seedSliceXorshift, writeWords_zero_lt _ _ _ _ (by simpa using hn), expandSlice_getElem]
  · rw [if_neg hn]
    exact writeWords_zero_ge _ _ _ _ (by simpa using hn)

/-- Settles O16: `SEED` leaves what `seedXorshift` makes, read word by word. -/
theorem seedXorshiftExpandsTheSeed : Obligations.SeedXorshiftExpandsTheSeed := fun s w N hN => by
  obtain ⟨ha, rfl⟩ := xorshift_of_wordCount hN
  refine ⟨(s.withGen (seedXorshift hardware w s.gen)).respond 0, ?_, ⟨rfl, rfl, rfl, rfl⟩, rfl, rfl,
    seedXorshift_getElem w⟩
  rw [← seedScalar_xorshift w ha]
  rfl

/-- Settles O19: `SEEDV` leaves what `seedSliceXorshift` makes, read word by word. -/
theorem seedvXorshiftCopiesTheSlice : Obligations.SeedvXorshiftCopiesTheSlice := fun s ws N hN => by
  obtain ⟨ha, rfl⟩ := xorshift_of_wordCount hN
  exact ⟨(s.withGen (seedSliceXorshift ws s.gen)).respond 0, exec_seedv_of_some (seedSlice_xorshift ws ha),
    ⟨rfl, rfl, rfl, rfl⟩, rfl, rfl, seedSliceXorshift_getElem ws⟩

/-! ## What each draw writes -/

/-- The new state word of xorshift64* (R163), from the old one: `draw_xs64s`. -/
def xs64sWord (x : Word) : Word :=
  let x := x ^^^ (x >>> 12)
  let x := x ^^^ (x <<< 25)
  x ^^^ (x >>> 27)

/-- The new word 1 of xorshift128+ (R164), from the old words 0 and 1: `draw_xs128p`. -/
def xs128pWord (P : Config.Params) (s0 s1 : Word) : Word :=
  let t := s1 ^^^ (s1 <<< 23)
  t ^^^ s0 ^^^ (t >>> P.xs128pShiftA) ^^^ (s0 >>> P.xs128pShiftB)

/-- The new word of xorshift1024* (R165), from the words at the old and at the advanced cursor: `draw_xs1024s`. -/
def xs1024sWord (s0 s1 : Word) : Word :=
  let a := s1 ^^^ (s1 <<< 31)
  (s0 ^^^ (s0 >>> 30)) ^^^ (a ^^^ (a >>> 11))

/-- R163: the state word is stored before the multiplication. -/
theorem draw_xs64s (ha : g.alg = .xs64s) : draw P g =
    .ok (xs64sWord g.S[0] * 0x2545F4914F6CDD1D, { g with S := g.S.set 0 (xs64sWord g.S[0]) }) := by
  simp only [draw, ha, drawXs64s, xs64sWord]

/-- R164: word 1 moves to word 0 as it is, and its mixture with word 0 takes its place. -/
theorem draw_xs128p (ha : g.alg = .xs128p) : draw P g =
    .ok (g.S[0] + g.S[1], { g with S := (g.S.set 0 g.S[1]).set 1 (xs128pWord P g.S[0] g.S[1]) }) := by
  simp only [draw, ha, drawXs128p]
  rw [Vector.set_comm _ _ (by omega)]
  rfl

/-- R165: the word at the advanced cursor changes. -/
theorem draw_xs1024s {p q : Nat} (ha : g.alg = .xs1024s) (hp : g.cur.toNat = p) (hq : (ringNext g.cur).toNat = q)
    (hp312 : p < 312) (hq312 : q < 312) : draw P g =
    .ok (xs1024sWord g.S[p] g.S[q] * 0x106689D45497FDB5,
      { g with S := g.S.set q (xs1024sWord g.S[p] g.S[q]), cur := ringNext g.cur }) := by
  subst hp hq
  simp only [draw, ha, drawXs1024s, dif_pos hp312]
  rfl

/-- The ring has 16 places (R165). -/
theorem ringNext_toNat (c : BitVec 9) : (ringNext c).toNat = (c.toNat + 1) % 16 := by
  have hmod : (ringNext c).toNat = (c.toNat + 1) % 512 % 16 := Nat.and_two_pow_sub_one_eq_mod _ 4
  omega

/-- Settles O24: the words named in the statement are the stages of `xs64sWord`. -/
theorem nextXorshift64 : Obligations.NextXorshift64 := by
  rintro s ha _ _ _ rfl rfl rfl
  exact execNext_of_draw (draw_xs64s ha)

/-- Settles O25: the draw with each of the two shift pairs. -/
theorem nextXorshift128 : Obligations.NextXorshift128 := by
  constructor
  · rintro s ha _ _ _ rfl rfl rfl
    exact execNext_of_draw (draw_xs128p ha)
  · rintro P g hA hB ha _ _ _ rfl rfl rfl
    rw [draw_xs128p ha, xs128pWord, hA, hB]

/-- Settles O26: below 16 the place after `p` in the ring is the `q` of the statement. -/
theorem nextXorshift1024 : Obligations.NextXorshift1024 := by
  rintro s p q ha hp h hq _ _ _ rfl rfl rfl
  have hnext : (ringNext s.gen.cur).toNat = q := by
    rw [ringNext_toNat, hp, hq]
    split <;> omega
  have hq312 : q < 312 := hnext ▸ ringNext_lt s.gen.cur
  have hcur : BitVec.ofNat 9 q = ringNext s.gen.cur := by rw [← hnext, BitVec.ofNat_toNat, BitVec.setWidth_eq]
  rw [execNext_of_draw (draw_xs1024s ha hp hnext (by omega) hq312), hcur]
  rfl

/-! ## The all-zero state by the number of words -/

theorem allZero_one (hn : stateWords g.alg = 1) : allZero g ↔ g.S[0] = 0 := by
  refine ⟨fun hz => hz 0 (by omega) (by omega), fun h0 i hi hlt => ?_⟩
  obtain rfl : i = 0 := by omega
  exact h0

theorem allZero_two (hn : stateWords g.alg = 2) : allZero g ↔ g.S[0] = 0 ∧ g.S[1] = 0 := by
  refine ⟨fun hz => ⟨hz 0 (by omega) (by omega), hz 1 (by omega) (by omega)⟩, fun ⟨h0, h1⟩ i hi hlt => ?_⟩
  obtain rfl | rfl : i = 0 ∨ i = 1 := by omega
  · exact h0
  · exact h1

/-! ## The all-zero state stays -/

theorem set_zero_of_eq_zero {S : Words} {i : Nat} (hi : i < 312) (h : S[i] = 0) : S.set i 0 = S := by
  simpa only [h] using Vector.set_getElem_self (xs := S) hi

theorem stepXo128_of_allZero (hn : stateWords g.alg = 2) (hz : allZero g) : stepXo128 g = g := by
  obtain ⟨h0, h1⟩ := (allZero_two hn).1 hz
  have hupdate : xo128Update 0 0 = (0, 0) := by decide
  simp only [stepXo128, h0, h1, hupdate, set_zero_of_eq_zero]

theorem stepXo256_of_allZero (hn : stateWords g.alg = 4) (hz : allZero g) : stepXo256 g = g := by
  have hword (i : Nat) (hi : i < 4) : g.S[i] = 0 := hz i (by omega) (by omega)
  have hupdate : xo256Update 0 0 0 0 = (0, 0, 0, 0) := by decide
  simp only [stepXo256, hword, hupdate, Nat.reduceLT, set_zero_of_eq_zero]

/-- R167, R188: the draws of ALG 1, 2 and 4 to 7 are shifts, rotations, xors and products of words, which all fix 0. -/
theorem draw_of_allZero (hx : g.alg ≠ .xs1024s) (hsm : g.alg ≠ .sm64) (hmt : g.alg ≠ .mt64) (hpcg : g.alg ≠ .pcg)
    (hz : allZero g) : draw P g = .ok (0, g) := by
  have hsum : sumOutput 0 0 = 0 := by decide
  have hscrambled : scrambledOutput 0 = 0 := by decide
  cases ha : g.alg with
  | sm64 => exact absurd ha hsm
  | mt64 => exact absurd ha hmt
  | pcg => exact absurd ha hpcg
  | xs1024s => exact absurd ha hx
  | xs64s =>
    have h0 := (allZero_one (congrArg stateWords ha)).1 hz
    have hnew : xs64sWord 0 = 0 := by decide
    rw [draw_xs64s ha]
    simp only [h0, hnew, set_zero_of_eq_zero, zero_mul]
  | xs128p =>
    obtain ⟨h0, h1⟩ := (allZero_two (congrArg stateWords ha)).1 hz
    have hnew : xs128pWord P 0 0 = 0 := by simp [xs128pWord]
    rw [draw_xs128p ha]
    simp only [h0, h1, hnew, set_zero_of_eq_zero, add_zero]
  | xo128p =>
    have hn : stateWords g.alg = 2 := congrArg stateWords ha
    obtain ⟨h0, h1⟩ := (allZero_two hn).1 hz
    simp only [draw, ha, drawXo128p, h0, h1, hsum, stepXo128_of_allZero hn hz]
  | xo128ss =>
    have hn : stateWords g.alg = 2 := congrArg stateWords ha
    obtain ⟨-, h1⟩ := (allZero_two hn).1 hz
    simp only [draw, ha, drawXo128ss, h1, hscrambled, stepXo128_of_allZero hn hz]
  | xo256p =>
    have hn : stateWords g.alg = 4 := congrArg stateWords ha
    have h0 : g.S[0] = 0 := hz 0 (by omega) (by omega)
    have h3 : g.S[3] = 0 := hz 3 (by omega) (by omega)
    simp only [draw, ha, drawXo256p, h0, h3, hsum, stepXo256_of_allZero hn hz]
  | xo256ss =>
    have hn : stateWords g.alg = 4 := congrArg stateWords ha
    have h1 : g.S[1] = 0 := hz 1 (by omega) (by omega)
    simp only [draw, ha, drawXo256ss, h1, hscrambled, stepXo256_of_allZero hn hz]

/-- R167: from the all-zero ring XS1024S moves the cursor only. -/
theorem draw_xs1024s_of_allZero (ha : g.alg = .xs1024s) (hc : g.cur.toNat ≤ 15) (hz : allZero g) :
    draw P g = .ok (0, { g with cur := ringNext g.cur }) := by
  have hn : stateWords g.alg = 16 := congrArg stateWords ha
  have hle := ringNext_le g.cur
  have hp := hz g.cur.toNat (by omega) (by omega)
  have hq := hz (ringNext g.cur).toNat (by omega) (by omega)
  have hnew : xs1024sWord 0 0 = 0 := by decide
  rw [draw_xs1024s ha rfl rfl (by omega) (by omega)]
  simp only [hp, hq, hnew, set_zero_of_eq_zero, zero_mul]

/-- Settles O34: the invariant has the ring cursor of XS1024S below 16; no other draw of ALG 1 to 7 writes `CUR`. -/
theorem allZeroStateReturnsZero : Obligations.AllZeroStateReturnsZero := fun s hs hsm hmt hpcg hz => by
  by_cases hx : s.gen.alg = .xs1024s
  · rw [execNext_of_draw (draw_xs1024s_of_allZero hx ((cursorLegal_xs1024s hx).1 hs.1.2) hz), if_pos hx]
    rfl
  · rw [execNext_of_draw (draw_of_allZero hx hsm hmt hpcg hz), if_neg hx]
    rfl

/-! ## No other state becomes all-zero -/

/-- A word that equals itself shifted left has no lowest one bit. -/
theorem xor_shiftLeft_eq_zero_iff {w : Nat} (x : BitVec w) {k : Nat} (hk : 0 < k) : x ^^^ (x <<< k) = 0 ↔ x = 0 := by
  constructor
  · intro h
    have hfix : x = x <<< k := BitVec.xor_eq_zero_iff.1 h
    have hbit (i : Nat) : x.getLsbD i = false := by
      induction i using Nat.strong_induction_on with
      | _ i ih =>
        rw [hfix, BitVec.getLsbD_shiftLeft]
        by_cases hik : i < k
        · simp [hik]
        · simp [ih (i - k) (by omega)]
    exact BitVec.eq_of_getLsbD_eq fun i _ => by simp [hbit i]
  · rintro rfl
    simp

/-- Each of the three shift-xors has the word 0 from the word 0 only. -/
theorem xs64sWord_eq_zero_iff (x : Word) : xs64sWord x = 0 ↔ x = 0 := by
  simp only [xs64sWord, xor_ushiftRight_eq_zero_iff _ (show 0 < 27 by omega),
    xor_shiftLeft_eq_zero_iff _ (show 0 < 25 by omega), xor_ushiftRight_eq_zero_iff _ (show 0 < 12 by omega)]

/-- With the word that stays 0, the new word is a shift-xor of the other one. -/
theorem xs128pWord_zero_eq_zero_iff (hB : 0 < P.xs128pShiftB) (s0 : Word) : xs128pWord P s0 0 = 0 ↔ s0 = 0 := by
  rw [← xor_ushiftRight_eq_zero_iff s0 hB]
  simp [xs128pWord]

/-- With the word at the old cursor 0, the new word is two shift-xors of the one it replaces. -/
theorem xs1024sWord_zero_eq_zero_iff (s1 : Word) : xs1024sWord 0 s1 = 0 ↔ s1 = 0 := by
  rw [← xor_shiftLeft_eq_zero_iff s1 (show 0 < 31 by omega),
    ← xor_ushiftRight_eq_zero_iff (s1 ^^^ (s1 <<< 31)) (show 0 < 11 by omega)]
  simp [xs1024sWord]

theorem allZero_of_draw_xs64s (ha : g.alg = .xs64s) (hd : draw P g = .ok (v, g')) (hz : allZero g') : allZero g := by
  have hnew := (allZero_one (congrArg stateWords ((draw_alg hd).trans ha))).1 hz
  obtain ⟨-, rfl⟩ := Prod.mk.inj (Except.ok.inj ((draw_xs64s ha).symm.trans hd))
  rw [Vector.getElem_set_self, xs64sWord_eq_zero_iff] at hnew
  exact (allZero_one (congrArg stateWords ha)).2 hnew

theorem allZero_of_draw_xs128p (hB : 0 < P.xs128pShiftB) (ha : g.alg = .xs128p) (hd : draw P g = .ok (v, g'))
    (hz : allZero g') : allZero g := by
  obtain ⟨hmoved, hnew⟩ := (allZero_two (congrArg stateWords ((draw_alg hd).trans ha))).1 hz
  obtain ⟨-, rfl⟩ := Prod.mk.inj (Except.ok.inj ((draw_xs128p ha).symm.trans hd))
  have h1 : g.S[1] = 0 := by simpa using hmoved
  rw [Vector.getElem_set_self, h1, xs128pWord_zero_eq_zero_iff hB] at hnew
  exact (allZero_two (congrArg stateWords ha)).2 ⟨hnew, h1⟩

/-- The word at the old cursor `p` is another than the one written, at `q`, so an all-zero ring after the draw has it 0,
and then the word written was 0 before. -/
theorem allZero_of_draw_xs1024s (ha : g.alg = .xs1024s) (hc : g.cur.toNat ≤ 15) (hd : draw P g = .ok (v, g'))
    (hz : allZero g') : allZero g := by
  have hn : stateWords g.alg = 16 := congrArg stateWords ha
  obtain ⟨p, hp⟩ : ∃ p, g.cur.toNat = p := ⟨_, rfl⟩
  obtain ⟨q, hq⟩ : ∃ q, (ringNext g.cur).toNat = q := ⟨_, rfl⟩
  have hnext := ringNext_toNat g.cur
  have hp312 : p < 312 := by omega
  have hq312 : q < 312 := by omega
  obtain ⟨-, rfl⟩ := Prod.mk.inj (Except.ok.inj ((draw_xs1024s ha hp hq hp312 hq312).symm.trans hd))
  have hother (i : Nat) (hi : i < 312) (hlt : i < stateWords g.alg) (hne : q ≠ i) : g.S[i] = 0 :=
    (Vector.getElem_set_ne hq312 hi hne).symm.trans (hz i hi hlt)
  have hold : g.S[p] = 0 := hother p hp312 (by omega) (by omega)
  have hnew : xs1024sWord g.S[p] g.S[q] = 0 :=
    (Vector.getElem_set_self hq312).symm.trans (hz q hq312 (show q < stateWords g.alg by omega))
  rw [hold, xs1024sWord_zero_eq_zero_iff] at hnew
  intro i hi hlt
  by_cases hqi : q = i
  · subst hqi
    exact hnew
  · exact hother i hi hlt hqi

/-- Settles O35: an all-zero state after the draw was all-zero before it. -/
theorem nonZeroStateStaysNonZero : Obligations.NonZeroStateStaysNonZero :=
  fun P g g' v hP hg hx hne hd hz => hne <| by
    obtain ⟨-, hshift, -⟩ := hP
    obtain ha | ha | ha := hx
    · exact allZero_of_draw_xs64s ha hd hz
    · exact allZero_of_draw_xs128p (by omega) ha hd hz
    · exact allZero_of_draw_xs1024s ha ((cursorLegal_xs1024s ha).1 hg.2) hd hz

end Sys2Proof.Machine
end

section
/-! PROOF. The rotate-shift-rotate family, ALG 4 to 7 (spec/44_xoroshiro_xoshiro.md): seeding from a scalar, in which ALG 9
(spec/46_pcg.md R231) does the same, and the four draws. -/

namespace Sys2Proof.Machine

variable {P : Config.Params} {g : Generator}

/-! ## Seeding -/

/-- The word counts the statement gives for the algorithms that expand a seed as it stands are those of R32. -/
theorem unsubstituted_of_wordCount {a : Alg} {N : Nat}
    (h : (a = .xo128p ∨ a = .xo128ss ∨ a = .pcg) ∧ N = 2 ∨ (a = .xo256p ∨ a = .xo256ss) ∧ N = 4) :
    (a = .xo128p ∨ a = .xo128ss ∨ a = .xo256p ∨ a = .xo256ss ∨ a = .pcg) ∧ N = stateWords a := by
  obtain ⟨rfl | rfl | rfl, rfl⟩ | ⟨rfl | rfl, rfl⟩ := h <;> simp [stateWords]

/-- R180, R231: the expansion of the seed takes the place of the leading words; `CUR` is not written. -/
theorem seedScalar_unsubstituted (x : Word)
    (ha : g.alg = .xo128p ∨ g.alg = .xo128ss ∨ g.alg = .xo256p ∨ g.alg = .xo256ss ∨ g.alg = .pcg) :
    seedScalar P x g = { g with S := writeWords g.S 0 (expandScalar x (stateWords g.alg)) } := by
  obtain ha | ha | ha | ha | ha := ha <;> simp only [seedScalar, ha, seedXoroshiro, seedPcg, stateWords]

/-- A prefix written from a scalar's expansion (R140), read word by word. -/
theorem writeWords_expandScalar_getElem (S : Words) (z : Word) (n i : Nat) (hi : i < 312) :
    (writeWords S 0 (expandScalar z n))[i] =
      if i < n then smMix (z + BitVec.ofNat 64 (i + 1) * smIncrement) else S[i] := by
  split
  case isTrue hn => rw [writeWords_zero_lt _ _ _ _ (by simpa using hn), expandScalar_getElem]
  case isFalse hn => exact writeWords_zero_ge _ _ _ _ (by simpa using hn)

/-- Settles O17: `SEED` leaves the expansion of the seed in the leading words, and the other parts as they were. -/
theorem seedExpandsWithoutDefault : Obligations.SeedExpandsWithoutDefault := fun s w N hN => by
  obtain ⟨ha, rfl⟩ := unsubstituted_of_wordCount hN
  refine ⟨(s.withGen { s.gen with S := writeWords s.gen.S 0 (expandScalar w (stateWords s.gen.alg)) }).respond 0, ?_,
    ⟨rfl, rfl, rfl, rfl⟩, rfl, rfl, writeWords_expandScalar_getElem s.gen.S w _⟩
  rw [← seedScalar_unsubstituted w ha]
  rfl

/-! ## Updates and outputs in closed form -/

/-- R181: word 0 is rotated by 24, and the xor of the two words by 37. -/
theorem xo128Update_eq (s0 s1 : Word) : xo128Update s0 s1 =
    (s0.rotateLeft 24 ^^^ (s1 ^^^ s0) ^^^ ((s1 ^^^ s0) <<< 16), (s1 ^^^ s0).rotateLeft 37) := by
  simp only [xo128Update, rotl64_eq_rotateLeft, Nat.reduceLT]

/-- R182: each of the sequential assignments replaced by what it reads of the old words. -/
theorem xo256Update_eq (a b c d : Word) : xo256Update a b c d =
    (a ^^^ d ^^^ b, b ^^^ c ^^^ a, c ^^^ a ^^^ (b <<< 17), (d ^^^ b).rotateLeft 45) := by
  simp only [xo256Update, rotl64_eq_rotateLeft, Nat.reduceLT, BitVec.xor_assoc]

theorem scrambledOutput_eq (x : Word) : scrambledOutput x = (x * 5).rotateLeft 7 * 9 := by
  rw [scrambledOutput, rotl64_eq_rotateLeft _ _ (by omega)]

/-! ## The draws -/

/-- R183, R184: one update, and two outputs of the words before it. -/
theorem draw_xo128 (ha : g.alg = .xo128p ∨ g.alg = .xo128ss) : draw P g =
    .ok (if g.alg = .xo128p then g.S[0] + g.S[1] else scrambledOutput g.S[1], stepXo128 g) := by
  obtain ha | ha := ha
  · simp only [draw, ha, drawXo128p, sumOutput, if_true]
  · simp only [draw, ha, drawXo128ss, reduceCtorEq, if_false]

/-- R185, R186: one update, and two outputs of the words before it. -/
theorem draw_xo256 (ha : g.alg = .xo256p ∨ g.alg = .xo256ss) : draw P g =
    .ok (if g.alg = .xo256p then g.S[0] + g.S[3] else scrambledOutput g.S[1], stepXo256 g) := by
  obtain ha | ha := ha
  · simp only [draw, ha, drawXo256p, sumOutput, if_true]
  · simp only [draw, ha, drawXo256ss, reduceCtorEq, if_false]

/-- Settles O27: the draw of ALG 4 and 5, its update and output in closed form. -/
theorem nextXoroshiro128 : Obligations.NextXoroshiro128 := by
  rintro s _ _ _ rfl rfl rfl ha
  rw [execNext_of_draw (draw_xo128 ha), stepXo128, xo128Update_eq, scrambledOutput_eq]
  rfl

/-- Settles O28: the draw of ALG 6 and 7, its update and output in closed form. -/
theorem nextXoshiro256 : Obligations.NextXoshiro256 := by
  rintro s _ _ _ _ rfl rfl rfl rfl ha
  rw [execNext_of_draw (draw_xo256 ha), stepXo256, xo256Update_eq, scrambledOutput_eq]
  rfl

end Sys2Proof.Machine
end

section
/-! PROOF. The 64-bit Mersenne Twister, ALG 8 (spec/45_mt19937_64.md): seeding from a scalar and from a slice, the twist
as a recurrence over old and new words, the draw, and which draws twist (R207). -/

namespace Sys2Proof.Machine

variable {P : Config.Params} {f : Fin 312 → Words → Words} {g g' p : Generator} {v : Word}

/-! ## A loop over the array in place -/

/-- `f` at an index writes the word there and no other. -/
def writesOnlyItsWord (f : Fin 312 → Words → Words) : Prop :=
  ∀ (i : Fin 312) (S : Words) (j : Nat) (hj : j < 312), j ≠ i.val → (f i S)[j] = S[j]

theorem writesOnlyItsWord_set (value : Fin 312 → Words → Word) :
    writesOnlyItsWord fun i S => S.set i (value i S) := fun i _ _ hj hne =>
  Vector.getElem_set_ne i.isLt hj hne.symm

theorem index_ne_zero {i : Fin 312} (h : 1 ≤ i.val) : i ≠ 0 := Fin.ne_of_val_ne (Nat.ne_of_gt h)

theorem loopIndex_val {i : Fin 312} {m : Nat} (h : i.val + m < 312) : (i + Fin.ofNat 312 m).val = i.val + m := by
  simp only [Fin.val_add, Fin.val_ofNat]
  omega

/-- A word the loop has not come to is as it was. -/
theorem forWords_getElem_ahead (hf : writesOnlyItsWord f) (S : Words) {i : Fin 312} {m j : Nat} (hj : j < 312)
    (hm : i.val + m ≤ j) : (forWords f m i S)[j] = S[j] := by
  induction m with
  | zero => rfl
  | succ m ih =>
    have hindex : (i + Fin.ofNat 312 m).val = i.val + m := loopIndex_val (by omega)
    simp only [forWords_succ_last]
    rw [hf _ _ j hj (by omega), ih (by omega)]

/-- A word the loop has passed keeps its value to the end. -/
theorem forWords_getElem_behind (hf : writesOnlyItsWord f) (S : Words) {i : Fin 312} {m n j : Nat} (hj : j < 312)
    (hmn : m ≤ n) (hn : i.val + n ≤ 312) (hm : j < i.val + m) : (forWords f n i S)[j] = (forWords f m i S)[j] := by
  induction n, hmn using Nat.le_induction with
  | base => rfl
  | succ n hle ih =>
    have hindex : (i + Fin.ofNat 312 n).val = i.val + n := loopIndex_val (by omega)
    simp only [forWords_succ_last]
    rw [hf _ _ j hj (by omega), ih (by omega)]

/-- What the loop leaves in word `i + m` is what its turn `m` writes there. -/
theorem forWords_getElem_turn (hf : writesOnlyItsWord f) (S : Words) {i : Fin 312} {k m n : Nat} (hmn : m < n)
    (hn : i.val + n ≤ 312) (hk : k = i.val + m) (hk312 : k < 312) :
    (forWords f n i S)[k] = (f ⟨k, hk312⟩ (forWords f m i S))[k] := by
  have hindex : i + Fin.ofNat 312 m = ⟨k, hk312⟩ := Fin.ext ((loopIndex_val (by omega)).trans hk.symm)
  rw [← hindex, ← forWords_succ_last f]
  exact forWords_getElem_behind hf S _ hmn hn (by omega)

/-! ## Seeding from a scalar -/

theorem mtFillAt_writesOnlyItsWord : writesOnlyItsWord mtFillAt := writesOnlyItsWord_set _

/-- What the loop of the fill starts from (R202). -/
def mtFillStart (x : Word) (S : Words) : Words := S.set 0 (if x = 0 then mtDefaultSeed else x)

theorem mtFill_S (x : Word) (g : Generator) : (mtFill x g).S = forWords mtFillAt 311 1 (mtFillStart x g.S) := by
  simp only [mtFill, mtFillWords, mtFillStart]

theorem mtFill_getElem_zero (x : Word) (g : Generator) : (mtFill x g).S[0] = if x = 0 then mtDefaultSeed else x := by
  simp only [mtFill_S]
  rw [forWords_getElem_behind (m := 0) mtFillAt_writesOnlyItsWord _ (by omega) (by omega) (by decide) (by decide),
    forWords_zero, mtFillStart, Vector.getElem_set_self]

/-- R202: a word of the fill comes from the word before it, which the fill has written already. -/
theorem mtFill_getElem (x : Word) (g : Generator) {i : Nat} (h1 : 1 ≤ i) (hi : i < 312) :
    (mtFill x g).S[i] =
      6364136223846793005 * ((mtFill x g).S[i - 1] ^^^ ((mtFill x g).S[i - 1] >>> 62)) + BitVec.ofNat 64 i := by
  have hindex : i = (1 : Fin 312).val + (i - 1) := by simp; omega
  have hsub : ((⟨i, hi⟩ : Fin 312) - 1).val = i - 1 := sub_one_val _ (index_ne_zero h1)
  simp only [mtFill_S]
  rw [forWords_getElem_turn mtFillAt_writesOnlyItsWord _ (k := i) (m := i - 1) (by omega) (by decide) hindex hi,
    forWords_getElem_behind (m := i - 1) mtFillAt_writesOnlyItsWord _ _ (by omega) (by decide) (by omega)]
  simp only [mtFillAt, Fin.getElem_fin, hsub, Vector.getElem_set_self]

/-- A command that responds `OK` with a new generator leaves the ports and the buffer (R90). Stated for every generator:
on a fill written out, a check by `rfl` would run its loop. -/
theorem respondedOk_withGen (s : State) (g : Generator) (v : Word) : respondedOk s ((s.withGen g).respond v) v :=
  ⟨rfl, rfl, rfl, rfl⟩

theorem exec_seed_mt64 {s : State} (x : Word) (ha : s.gen.alg = .mt64) :
    exec (.seed x) s = .next ((s.withGen (mtFill x s.gen)).respond 0) := by
  simp only [exec, execSeed, seedScalar, ha]

/-- Settles O18: `SEED` leaves the fill, read word by word. -/
theorem seedMersenneFillsTheArray : Obligations.SeedMersenneFillsTheArray := fun s w ha => by
  refine ⟨(s.withGen (mtFill w s.gen)).respond 0, exec_seed_mt64 w ha, respondedOk_withGen .., ?_⟩
  simp only [respond_gen, withGen_gen, mtFill_alg, mtFill_cur]
  exact ⟨ha, rfl, mtFill_getElem_zero w s.gen, fun _ h1 hi => mtFill_getElem w s.gen h1 hi⟩

/-! ## Seeding from a slice -/

theorem mtKey_eq (ws : List Word) : mtKey ws = if ws = [] then [0] else ws := by
  cases ws with
  | nil => rfl
  | cons w ws => rfl

theorem mtKey_length_pos (ws : List Word) : 0 < (mtKey ws).length := by
  cases ws with
  | nil => exact Nat.one_pos
  | cons w ws => exact Nat.succ_pos _

/-- The word both passes of R203 start from, with the index as a number. -/
theorem mtMixWord_eq (S : Words) {i : Fin 312} {k : Nat} (hk : 1 ≤ k ∧ k < 312) (hi : i.val = k) (mult : Word) :
    mtMixWord S i mult = S[k] ^^^ ((S[k - 1] ^^^ (S[k - 1] >>> 62)) * mult) := by
  subst hi
  have hsub : (i - 1).val = i.val - 1 := sub_one_val i (index_ne_zero hk.1)
  simp only [mtMixWord, Fin.getElem_fin, hsub]

theorem mtFirstMix_mixedAt (key : List Word) (m : MixState) {i : Nat} (hi : 1 ≤ i ∧ i < 312) (hmi : m.i.val = i) :
    mixedAt m.S (mtFirstMix key m).S i
      ((m.S[i] ^^^ ((m.S[i - 1] ^^^ (m.S[i - 1] >>> 62)) * 3935559000370003845)) + key.getD m.j 0 +
        BitVec.ofNat 64 m.j) := by
  subst hmi
  rw [← mtMixWord_eq m.S hi rfl]
  exact mtAdvance_mixedAt m.S m.i (index_ne_zero hi.1) _

theorem mtSecondMix_mixedAt (m : MixState) {i : Nat} (hi : 1 ≤ i ∧ i < 312) (hmi : m.i.val = i) :
    mixedAt m.S (mtSecondMix m).S i
      ((m.S[i] ^^^ ((m.S[i - 1] ^^^ (m.S[i - 1] >>> 62)) * 2862933555777941757)) - BitVec.ofNat 64 i) := by
  subst hmi
  rw [← mtMixWord_eq m.S hi rfl]
  exact mtAdvance_mixedAt m.S m.i (index_ne_zero hi.1) _

/-- The two passes of R203 as one run: `n` steps of the first pass, and then steps of the second. -/
def mtMixRun (key : List Word) (n : Nat) (S : Words) : Nat → MixState
  | 0 => { S := S, i := 1, j := 0 }
  | m + 1 => if m < n then mtFirstMix key (mtMixRun key n S m) else mtSecondMix (mtMixRun key n S m)

section
variable (key : List Word) (n : Nat) (S : Words)

theorem mtMixRun_succ_of_lt {m : Nat} (hm : m < n) :
    mtMixRun key n S (m + 1) = mtFirstMix key (mtMixRun key n S m) := by
  rw [mtMixRun, if_pos hm]

theorem mtMixRun_succ_of_ge {m : Nat} (hm : n ≤ m) :
    mtMixRun key n S (m + 1) = mtSecondMix (mtMixRun key n S m) := by
  rw [mtMixRun, if_neg (by omega)]

theorem mtMixRun_first {m : Nat} (hm : m ≤ n) :
    mtMixRun key n S m = repeatMix (mtFirstMix key) m { S := S, i := 1, j := 0 } := by
  induction m with
  | zero => rfl
  | succ m ih => rw [mtMixRun_succ_of_lt key n S hm, ih (by omega), repeatMix_succ_last]

theorem mtMixRun_second (k : Nat) : mtMixRun key n S (n + k) = repeatMix mtSecondMix k (mtMixRun key n S n) := by
  induction k with
  | zero => rfl
  | succ k ih => rw [← Nat.add_assoc, mtMixRun_succ_of_ge key n S (by omega), ih, repeatMix_succ_last]

/-- `i` goes through 1 to 311 in turn and is not reset between the passes. -/
theorem mtMixRun_i (m : Nat) : (mtMixRun key n S m).i.val = 1 + m % 311 := by
  induction m with
  | zero => rfl
  | succ m ih =>
    have hne : (mtMixRun key n S m).i ≠ 0 := index_ne_zero (by omega)
    rw [mtMixRun]
    split <;> exact mtAdvance_index _ _ hne m ih

/-- `j` goes through the key in turn in the first pass. -/
theorem mtMixRun_j (hkey : 0 < key.length) {m : Nat} (hm : m ≤ n) : (mtMixRun key n S m).j = m % key.length := by
  induction m with
  | zero => rfl
  | succ m ih =>
    have hlt : m % key.length < key.length := Nat.mod_lt m hkey
    have hj : (mtMixRun key n S (m + 1)).j =
        if (mtMixRun key n S m).j + 1 ≥ key.length then 0 else (mtMixRun key n S m).j + 1 := by
      rw [mtMixRun_succ_of_lt key n S hm, mtFirstMix]
    rw [hj, ih (by omega), ← Nat.mod_add_mod]
    split
    case isTrue hlast => rw [show m % key.length + 1 = key.length by omega, Nat.mod_self]
    case isFalse hnext => exact (Nat.mod_eq_of_lt (by omega)).symm

end

/-- R203: the array after both passes, with word 0 replaced. -/
theorem seedSliceMt_S (ws : List Word) (g : Generator) {n : Nat} (hn : n = max 312 (mtKey ws).length) :
    (seedSliceMt ws g).S =
      (mtMixRun (mtKey ws) n (mtFill 19650218 g).S (n + 311)).S.set 0 0x8000000000000000 := by
  rw [mtMixRun_second, mtMixRun_first _ _ _ le_rfl, hn, seedSliceMt]

theorem exec_seedv_mt64 {s : State} (ws : List Word) (ha : s.gen.alg = .mt64) :
    exec (.seedv ws) s = .next ((s.withGen (seedSliceMt ws s.gen)).respond 0) :=
  exec_seedv_of_some (by simp only [seedSlice, ha])

/-- Settles O20: the arrays are those of the run of both passes, whose counters are known at every step. -/
theorem seedvMersenneMixesTheKey : Obligations.SeedvMersenneMixesTheKey := fun s ws key n ha hkey hn => by
  obtain rfl : key = mtKey ws := hkey.trans (mtKey_eq ws).symm
  refine ⟨(s.withGen (seedSliceMt ws s.gen)).respond 0, fun m => (mtMixRun (mtKey ws) n (mtFill 19650218 s.gen).S m).S,
    exec_seedv_mt64 ws ha, respondedOk_withGen .., ?_⟩
  simp only [respond_gen, withGen_gen, seedSliceMt_alg, seedSliceMt_cur]
  refine ⟨ha, rfl, by simp only [mtMixRun, mtFill], ?_, ?_, ?_⟩
  · rintro m i j hi hm hmi rfl
    rw [mtMixRun_succ_of_lt _ _ _ hm, ← mtMixRun_j _ _ (mtFill 19650218 s.gen).S (mtKey_length_pos ws) hm.le]
    exact mtFirstMix_mixedAt _ _ hi ((mtMixRun_i _ _ _ m).trans hmi.symm)
  · intro m i hi hm _ hmi
    rw [mtMixRun_succ_of_ge _ _ _ hm]
    exact mtSecondMix_mixedAt _ hi ((mtMixRun_i _ _ _ m).trans hmi.symm)
  · intro i hi
    simp only [seedSliceMt_S ws s.gen hn, Vector.getElem_set, eq_comm]

/-! ## The twist -/

theorem mtTwistAt_writesOnlyItsWord : writesOnlyItsWord mtTwistAt := writesOnlyItsWord_set _

/-- The bit that selects the matrix coefficient is bit 0 of the second word: the upper mask has it 0, the lower 1. -/
theorem mtTwistAt_getElem (i : Nat) (hi : i < 312) (S : Words) :
    (mtTwistAt ⟨i, hi⟩ S)[i] = S[((⟨i, hi⟩ : Fin 312) + 156).val] ^^^
      twistFeedback S[i] S[((⟨i, hi⟩ : Fin 312) + 1).val] := by
  have hbit (u l : Word) : ((u &&& mtUpperMask) ||| (l &&& mtLowerMask)).getLsbD 0 = l.getLsbD 0 := by
    simp [mtUpperMask, mtLowerMask]
  simp only [mtTwistAt, Fin.getElem_fin, Vector.getElem_set_self, hbit, BitVec.xor_assoc]
  rfl

theorem mtTwist_S (g : Generator) : (mtTwist g).S = forWords mtTwistAt 312 0 g.S := by simp only [mtTwist]

/-- R204: word `i` from the old words from `i` on and, as soon as the index 156 ahead wraps, from new ones. -/
theorem mtTwist_getElem (g : Generator) (i : Nat) (hi : i < 312) :
    (mtTwist g).S[i] = (if h : i < 156 then g.S[156 + i] else (mtTwist g).S[i - 156]'(by omega)) ^^^
      twistFeedback g.S[i] (if h : i < 311 then g.S[i + 1] else (mtTwist g).S[0]) := by
  have hold (j : Nat) (hj : j < 312) (hij : i ≤ j) : (forWords mtTwistAt i 0 g.S)[j] = g.S[j] :=
    forWords_getElem_ahead mtTwistAt_writesOnlyItsWord g.S hj (by simpa using hij)
  have hnew (j : Nat) (hj : j < 312) (hji : j < i) : (forWords mtTwistAt i 0 g.S)[j] = (mtTwist g).S[j] := by
    simp only [mtTwist_S]
    rw [forWords_getElem_behind mtTwistAt_writesOnlyItsWord g.S hj hi.le (by decide) (by simpa using hji)]
  have hturn : (mtTwist g).S[i] = (mtTwistAt ⟨i, hi⟩ (forWords mtTwistAt i 0 g.S))[i] := by
    simp only [mtTwist_S]
    exact forWords_getElem_turn mtTwistAt_writesOnlyItsWord g.S hi (by decide) (by simp) hi
  have hahead : (forWords mtTwistAt i 0 g.S)[((⟨i, hi⟩ : Fin 312) + 156).val] =
      if h : i < 156 then g.S[156 + i] else (mtTwist g).S[i - 156]'(by omega) := by
    have hindex : ((⟨i, hi⟩ : Fin 312) + 156).val = if i < 156 then 156 + i else i - 156 := by
      simp only [Fin.val_add, Fin.isValue, Fin.coe_ofNat_eq_mod]
      split <;> omega
    simp only [hindex]
    split
    case isTrue h => exact hold (156 + i) (by omega) (by omega)
    case isFalse h => exact hnew (i - 156) (by omega) (by omega)
  have hafter : (forWords mtTwistAt i 0 g.S)[((⟨i, hi⟩ : Fin 312) + 1).val] =
      if h : i < 311 then g.S[i + 1] else (mtTwist g).S[0] := by
    have hindex : ((⟨i, hi⟩ : Fin 312) + 1).val = if i < 311 then i + 1 else 0 := by
      simp only [Fin.val_add, Fin.isValue, Fin.coe_ofNat_eq_mod]
      split <;> omega
    simp only [hindex]
    split
    case isTrue h => exact hold (i + 1) (by omega) (by omega)
    case isFalse h => exact hnew 0 (by omega) (by omega)
  rw [hturn, mtTwistAt_getElem, hold i hi le_rfl, hahead, hafter]

/-- Settles O30: the three ranges of the recurrence are those on which no index wraps, the one 156 ahead wraps, and both
wrap. -/
theorem twistMixesOldAndNewWords : Obligations.TwistMixesOldAndNewWords := fun g => by
  refine ⟨mtTwist_cur g, mtTwist_alg g, fun i => ?_, fun i => ?_, ?_⟩
  · have hword := mtTwist_getElem g i.val (by omega)
    rwa [dif_pos i.isLt, dif_pos (by omega)] at hword
  · have hword := mtTwist_getElem g (156 + i.val) (by omega)
    rw [dif_neg (by omega), dif_pos (by omega)] at hword
    have hnext : 156 + i.val + 1 = 157 + i.val := by omega
    simpa only [Nat.add_sub_cancel_left, hnext] using hword
  · exact mtTwist_getElem g 311 (by omega)

/-! ## The draw -/

theorem draw_mt64 (ha : g.alg = .mt64) : draw P g = drawMt g := by
  simp only [draw, ha]

/-- The three conditions of a generator before a draw, and what the draw reads in each (R206). -/
theorem mtReady_of_condition (h : g.cur.toNat < 312 ∧ g' = g ∨ g.cur = 312 ∧ g' = mtTwist g ∨
    g.cur = 313 ∧ g' = mtTwist (mtFill 5489 g)) : g.cur.toNat ≤ 313 ∧ mtReady g = g' := by
  obtain ⟨hc, rfl⟩ | ⟨hc, rfl⟩ | ⟨hc, rfl⟩ := h
  · exact ⟨by omega, mtReady_of_lt _ hc⟩
  · exact ⟨by rw [hc]; decide, mtReady_exhausted _ hc⟩
  · exact ⟨by rw [hc]; decide, mtReady_unseeded _ hc⟩

/-- Settles O29: the words named in the statement are the stages of the tempering. -/
theorem nextMersenne : Obligations.NextMersenne := fun s g ha hcondition => by
  obtain ⟨hc, hready⟩ := mtReady_of_condition hcondition
  obtain ⟨hlt, hdraw⟩ := drawMt_ok s.gen hc
  rw [← draw_mt64 ha] at hdraw
  subst hready
  refine ⟨hlt, ?_⟩
  rintro _ _ _ _ rfl rfl rfl rfl
  exact execNext_of_draw hdraw

/-! ## Which draws twist -/

/-- The last of `k + 1` draws taken out. -/
theorem afterDraws_succ_eq_ok {k : Nat} : afterDraws P (k + 1) g = .ok g' ↔
    ∃ p v, afterDraws P k g = .ok p ∧ draw P p = .ok (v, g') := by
  induction k generalizing g with
  | zero =>
    cases hd : draw P g with
    | error f => simp [afterDraws, hd]
    | ok q => simp [afterDraws, hd, Prod.ext_iff]
  | succ k ih =>
    cases hd : draw P g with
    | error f => simp [afterDraws, hd]
    | ok q => rw [afterDraws_succ_of_ok hd, afterDraws_succ_of_ok hd, ih]

/-- A draw from a generator with words left in its buffer (R206). -/
theorem draw_mt64_of_lt (ha : p.alg = .mt64) (hc : p.cur.toNat < 312) (hd : draw P p = .ok (v, g')) :
    g'.cur.toNat = p.cur.toNat + 1 ∧ g'.S = p.S := by
  rw [draw_mt64 ha] at hd
  obtain ⟨-, -, rfl⟩ := drawMt_eq_ok hd
  rw [mtReady_of_lt p hc]
  have hone : (1 : BitVec 9).toNat = 1 := rfl
  have hcur : (p.cur + 1).toNat = p.cur.toNat + 1 := by
    rw [BitVec.toNat_add, hone, Nat.mod_eq_of_lt (by omega)]
  exact ⟨hcur, rfl⟩

/-- A draw from an exhausted or an unseeded generator twists, and reads the first new word (R206). -/
theorem draw_mt64_of_marker (ha : p.alg = .mt64) (hc : p.cur = 312 ∨ p.cur = 313) (hd : draw P p = .ok (v, g')) :
    g'.cur.toNat = 1 ∧ g'.S = (mtTwist (if p.cur = 313 then mtFill 5489 p else p)).S := by
  have hready : mtReady p = mtTwist (if p.cur = 313 then mtFill 5489 p else p) := by
    obtain hc | hc := hc
    · rw [mtReady_exhausted p hc, if_neg (by rw [hc]; decide)]
    · rw [mtReady_unseeded p hc, if_pos hc, mtDefaultSeed]
  rw [draw_mt64 ha] at hd
  obtain ⟨-, -, rfl⟩ := drawMt_eq_ok hd
  simp only [hready, mtTwist_cur, and_true]
  rfl

/-- What `k` draws leave of an MT64 generator that began at one of the two markers: again a marker after every 312 draws,
and else the number of draws since (R206 b, R207). -/
def drawnSinceTwist (k : Nat) (p : Generator) : Prop :=
  p.alg = .mt64 ∧ if k % 312 = 0 then p.cur = 312 ∨ p.cur = 313 else p.cur.toNat = k % 312

/-- The next draw twists exactly if `CUR` is at a marker. -/
theorem draw_of_drawnSinceTwist {k : Nat} (hp : drawnSinceTwist k p) (hd : draw P p = .ok (v, g')) :
    g'.cur.toNat = k % 312 + 1 ∧
      g'.S = if k % 312 = 0 then (mtTwist (if p.cur = 313 then mtFill 5489 p else p)).S else p.S := by
  obtain ⟨ha, hc⟩ := hp
  by_cases hk : k % 312 = 0
  · rw [if_pos hk] at hc ⊢
    rw [hk]
    exact draw_mt64_of_marker ha hc hd
  · rw [if_neg hk] at hc ⊢
    rw [← hc]
    exact draw_mt64_of_lt ha (by omega) hd

theorem drawnSinceTwist_succ {k : Nat} (hp : drawnSinceTwist k p) (hd : draw P p = .ok (v, g')) :
    drawnSinceTwist (k + 1) g' := by
  obtain ⟨hcur, -⟩ := draw_of_drawnSinceTwist hp hd
  refine ⟨(draw_alg hd).trans hp.1, ?_⟩
  split
  case isTrue hk => exact .inl (BitVec.eq_of_toNat_eq (by simp; omega))
  case isFalse hk => omega

theorem drawnSinceTwist_afterDraws {k : Nat} (ha : g.alg = .mt64) (hc : g.cur = 312 ∨ g.cur = 313)
    (hp : afterDraws P k g = .ok p) : drawnSinceTwist k p := by
  induction k generalizing p with
  | zero =>
    obtain rfl := Except.ok.inj hp
    exact ⟨ha, hc⟩
  | succ k ih =>
    obtain ⟨q, v, hq, hd⟩ := afterDraws_succ_eq_ok.1 hp
    exact drawnSinceTwist_succ (ih hq) hd

/-- Settles O31: by what the draws before number `k` leave, and what one draw does to that. -/
theorem mersenneTwistsEvery312Draws : Obligations.MersenneTwistsEvery312Draws := fun g p g' k ha hc hk hp hg' => by
  obtain ⟨k, rfl⟩ := Nat.exists_eq_add_of_le' hk
  obtain ⟨q, v, hq, hd⟩ := afterDraws_succ_eq_ok.1 hg'
  obtain rfl : q = p := Except.ok.inj (hq.symm.trans hp)
  exact draw_of_drawnSinceTwist (drawnSinceTwist_afterDraws ha hc hp) hd

end Sys2Proof.Machine
end

section
/-! PROOF. The permuted congruential generator, ALG 9 (spec/46_pcg.md): the words of a 128-bit sum and of a 128-bit
product, with them the update in 64-bit pieces (R234), and the draw (R232). -/

namespace Sys2Proof.Machine

variable {P : Config.Params} {g : Generator}

/-! ## The words of a 128-bit value -/

theorem loWord_append (hi lo : Word) : loWord (hi ++ lo) = lo := BitVec.extractLsb'_append_eq_right

theorem hiWord_append (hi lo : Word) : hiWord (hi ++ lo) = hi := BitVec.extractLsb'_append_eq_left

/-- The words are the two digits of the value (R33). -/
theorem toNat_eq_words (x : DWord) : x.toNat = 2 ^ 64 * (hiWord x).toNat + (loWord x).toNat := by
  rw [hiWord_toNat, loWord_toNat, Nat.div_add_mod]

theorem loWord_add (x y : DWord) : loWord (x + y) = loWord x + loWord y := BitVec.extractLsb'_add (by omega)

theorem loWord_mul (x y : DWord) : loWord (x * y) = loWord x * loWord y := BitVec.extractLsb'_mul (by omega)

/-- A sum of two words has wrapped exactly if it is less than the first word: the comparison of R234 is the carry. -/
theorem toNat_carry (a b : Word) :
    (if (a + b).toNat < a.toNat then 1 else 0 : Word).toNat = (a.toNat + b.toNat) / 2 ^ 64 := by
  have ha := a.isLt
  have hb := b.isLt
  have hsum := BitVec.toNat_add a b
  split
  case isTrue hwrapped =>
    change 1 = (a.toNat + b.toNat) / 2 ^ 64
    omega
  case isFalse hfits =>
    change 0 = (a.toNat + b.toNat) / 2 ^ 64
    omega

/-- The high word of a sum takes the carry out of the low words. -/
theorem hiWord_add (x y : DWord) : hiWord (x + y) =
    hiWord x + hiWord y + if (loWord x + loWord y).toNat < (loWord x).toNat then 1 else 0 := by
  apply BitVec.eq_of_toNat_eq
  rw [hiWord_toNat, BitVec.toNat_add, BitVec.toNat_add, BitVec.toNat_add, toNat_carry, toNat_eq_words x,
    toNat_eq_words y]
  omega

/-- The high word of a product: the product of the low words reaches into it, the mixed products begin in it, and the
product of the high words lies past bit 127. -/
theorem hiWord_mul (x y : DWord) : hiWord (x * y) =
    mulHi64 (loWord x) (loWord y) + hiWord x * loWord y + loWord x * hiWord y := by
  apply BitVec.eq_of_toNat_eq
  have hexact : x.toNat * y.toNat =
      2 ^ 64 * (2 ^ 64 * ((hiWord x).toNat * (hiWord y).toNat) +
        ((hiWord x).toNat * (loWord y).toNat + (loWord x).toNat * (hiWord y).toNat)) +
      (loWord x).toNat * (loWord y).toNat := by
    rw [toNat_eq_words x, toNat_eq_words y]
    ring
  rw [hiWord_toNat, BitVec.toNat_mul, hexact, mulHi64, BitVec.toNat_add, BitVec.toNat_add, BitVec.toNat_mul,
    BitVec.toNat_mul, BitVec.toNat_ofNat]
  omega

/-- Settles O33: the pieces are the words of a sum, its carry written out, and of the product in it. -/
theorem pcgPiecesAreTheUpdate : Obligations.PcgPiecesAreTheUpdate := fun P lo hi => by
  rw [pcgUpdate, loWord_add, hiWord_add, loWord_mul, hiWord_mul, loWord_append, hiWord_append]
  rfl

/-! ## The draw -/

/-- The rotation count is the top 6 bits of the new high word, so it is less than 64. -/
theorem pcgOutput_eq (lo hi : Word) : pcgOutput lo hi = (hi ^^^ lo).rotateRight (hi.toNat / 2 ^ 58) := by
  have hhi := hi.isLt
  rw [pcgOutput, BitVec.toNat_ushiftRight, Nat.shiftRight_eq_div_pow, rotr64_eq_rotateRight _ _ (by omega)]

/-- R232: the two words of the new value are stored, and the output is taken from them. -/
theorem draw_pcg {lo hi : Word} (ha : g.alg = .pcg) (hlo : loWord (pcgUpdate P (pcgValue g)) = lo)
    (hhi : hiWord (pcgUpdate P (pcgValue g)) = hi) : draw P g =
    .ok ((hi ^^^ lo).rotateRight (hi.toNat / 2 ^ 58), { g with S := (g.S.set 0 lo).set 1 hi }) := by
  simp only [draw, ha, drawPcg, hlo, hhi, pcgOutput_eq]

/-- The new value in exact integers, with the constants of R230. -/
theorem pcgUpdate_hardware_toNat (g : Generator) : (pcgUpdate hardware (pcgValue g)).toNat =
    ((g.S[1].toNat * 2 ^ 64 + g.S[0].toNat) * 0x2360ED051FC65DA44385DF649FCCF645 +
      0x5851F42D4C957F2D14057B7EF767814F) % 2 ^ 128 := by
  rw [pcgUpdate_toNat, pcgValue, append_toNat, hardware_pcgMul_toNat, hardware_pcgInc_toNat]

/-- Settles O32: the words named in the statement are those of the new value. -/
theorem nextPcg : Obligations.NextPcg := fun s X lo hi ha hX hlo hhi => by
  rw [← pcgUpdate_hardware_toNat] at hX
  rw [hX, ← loWord_toNat] at hlo
  rw [hX, ← hiWord_toNat] at hhi
  exact execNext_of_draw (draw_pcg ha (BitVec.eq_of_toNat_eq hlo.symm) (BitVec.eq_of_toNat_eq hhi.symm))

end Sys2Proof.Machine
end

section
/-! PROOF. The unbiased-range rejection sampler (spec/47_sampler.md R240 to R249): the raw values up to the threshold
are a whole number of periods of the bound, and a sampler command is the sampler at its width, or a refusal of its bound. -/

namespace Sys2Proof.Machine

variable {P : Config.Params} {W : Width} {i : Instr} {s t : State} {g g' : Generator} {n r v : Word}

/-! ## The threshold -/

/-- R241: as many raw values are accepted as the largest multiple of the bound among the `2^W` of them. -/
theorem threshold_add_one {m : Nat} (hm : 1 ≤ m) (hlt : m < 2 ^ widthBits W) :
    threshold W m + 1 = m * (2 ^ widthBits W / m) := by
  have hsplit := Nat.div_add_mod (2 ^ widthBits W) m
  have hmod : 2 ^ widthBits W % m < m := Nat.mod_lt _ hm
  rw [threshold]
  omega

/-- In whole periods of `m` each residue below `m` occurs once a period. -/
theorem card_filter_mod_eq {m q c : Nat} (hc : c < m) : ((Finset.range (m * q)).filter (· % m = c)).card = q := by
  have hm : 0 < m := by omega
  have hcount := Nat.count_modEq_card (m * q) hm c
  rw [Nat.mul_div_cancel_left q hm, Nat.mul_mod_right, if_neg (Nat.not_lt_zero _), Nat.add_zero,
    Nat.count_eq_card_filter_range] at hcount
  simpa only [Nat.ModEq, Nat.mod_eq_of_lt hc] using hcount

/-- Settles O39: the accepted raw values are `2^W div n` whole periods. -/
theorem acceptedValuesAreUnbiased : Obligations.AcceptedValuesAreUnbiased := fun W m c hm hlt hc _ => by
  have hcount := threshold_add_one hm hlt
  have haccepted : ((Finset.range (2 ^ widthBits W)).filter fun v => v ≤ threshold W m ∧ v % m = c) =
      (Finset.range (m * (2 ^ widthBits W / m))).filter (· % m = c) := by
    have hle := Nat.mul_div_le (2 ^ widthBits W) m
    ext v
    simp only [Finset.mem_filter, Finset.mem_range]
    omega
  rw [haccepted, card_filter_mod_eq hc]

/-- Settles O40: taking the bound away once does not change the remainder, and what is left has `W` bits. -/
theorem thresholdFromNegatedBound : Obligations.ThresholdFromNegatedBound := fun W m hm hlt => by
  rw [Nat.mod_eq_of_lt (by omega : 2 ^ widthBits W - m < 2 ^ widthBits W), ← Nat.mod_eq_sub_mod hlt.le]
  rfl

/-- Settles O41: what is rejected is less than one period, and at least one period is accepted. -/
theorem moreThanHalfIsAccepted : Obligations.MoreThanHalfIsAccepted := fun W m hm hlt => by
  have hsplit := Nat.div_add_mod (2 ^ widthBits W) m
  have hrejected : 2 ^ widthBits W % m < m := Nat.mod_lt _ hm
  have haccepted : m ≤ m * (2 ^ widthBits W / m) := Nat.le_mul_of_pos_right m (Nat.div_pos hlt.le hm)
  rw [threshold_add_one hm hlt]
  omega

/-! ## The bounds a sampler command takes -/

/-- `SamplerAt i n W`: `i` is a sampler command with the bound `n` that samples at width `W` (R243 to R245). -/
inductive SamplerAt : Instr → Word → Width → Prop
  | unif64 (n : Word) : SamplerAt (.unif64 n) n .w64
  | unif32 {n : Word} (hn : n.toNat ≤ 0xFFFFFFFF) : SamplerAt (.unif32 n) n .w32
  | uintnNarrow {n : Word} (hn : n.toNat ≤ 0xFFFFFFFF) : SamplerAt (.uintn n) n .w32
  | uintnWide {n : Word} (hn : 0xFFFFFFFF < n.toNat) : SamplerAt (.uintn n) n .w64

/-- With a legal bound a sampler command is the sampler at its width. -/
theorem SamplerAt.exec_eq (hi : SamplerAt i n W) (hn : n ≠ 0) (s : State) : exec i s = sampleCommand W n s := by
  cases hi with
  | unif64 => exact exec_unif64_of_ne s hn
  | unif32 hle => exact exec_unif32_of_le s hn hle
  | uintnNarrow hle => exact exec_uintn_of_le s hn hle
  | uintnWide hgt => exact exec_uintn_of_gt s hn hgt

/-- A sampler command whose sampler gives a value answers it and leaves the generator after the draws. -/
theorem SamplerAt.exec_of_sample (hi : SamplerAt i n W) (hn : n ≠ 0)
    (hs : sample hardware W n s.gen = .ok (some (v, g))) : exec i s = .next ((s.withGen g).respond v) :=
  (hi.exec_eq hn s).trans (sampleCommand_of_some hs)

/-- R244: `UNIF32` refuses the bound 0 and the bounds that do not fit 32 bits. -/
theorem exec_unif32_of_bad (s : State) (hn : n = 0 ∨ 0xFFFFFFFF < n.toNat) :
    exec (.unif32 n) s = .next (s.raise .badBound) := if_pos hn

/-- R243 to R245: every sampler command refuses the bound 0. -/
theorem exec_sampler_of_zero (s : State) (hn : n = 0) (hi : i = .unif64 n ∨ i = .unif32 n ∨ i = .uintn n) :
    exec i s = .next (s.raise .badBound) := by
  obtain rfl | rfl | rfl := hi
  · exact if_pos hn
  · exact exec_unif32_of_bad s (.inl hn)
  · exact if_pos hn

/-- Settles O45: the bound 0, and for `UNIF32` a bound that does not fit 32 bits. -/
theorem badBoundFaults : Obligations.BadBoundFaults := fun s _ =>
  ⟨exec_sampler_of_zero s rfl (.inl rfl), exec_sampler_of_zero s rfl (.inr (.inr rfl)),
    exec_unif32_of_bad s (.inl rfl), fun hn => exec_unif32_of_bad s (.inr hn)⟩

/-- Settles O46: the bound 0 is refused by either, and a legal one makes both the sampler at the same width. -/
theorem uintnDispatchesByBound : Obligations.UintnDispatchesByBound := fun s n => by
  by_cases hn : n = 0
  · have hrefused {i : Instr} := exec_sampler_of_zero (i := i) s hn
    exact ⟨fun _ => (hrefused (.inr (.inr rfl))).trans (hrefused (.inr (.inl rfl))).symm,
      fun _ => (hrefused (.inr (.inr rfl))).trans (hrefused (.inl rfl)).symm⟩
  · exact ⟨fun hle => ((SamplerAt.uintnNarrow hle).exec_eq hn s).trans ((SamplerAt.unif32 hle).exec_eq hn s).symm,
      fun hgt => ((SamplerAt.uintnWide hgt).exec_eq hn s).trans ((SamplerAt.unif64 n).exec_eq hn s).symm⟩

/-! ## What a sampler command answers -/

/-- Settles O42: the sampler of a bound that is no power of two gives the first accepted raw value modulo the bound. -/
theorem samplerAnswersFirstAccepted : Obligations.SamplerAnswersFirstAccepted := fun s n v k g hn hpow => by
  have hanswer {i : Instr} {W : Width} (hi : SamplerAt i n W) (hfirst : firstAccepted hardware W n s.gen k v g) :
      exec i s = .next ((s.withGen g).respond (rawValue W v % n)) :=
    hi.exec_of_sample hn (sample_of_firstAccepted ((isPowerOfTwo_eq_false hn).2 hpow) hfirst)
  exact ⟨fun hfirst => hanswer (.unif64 n) hfirst, fun hfirst hle => hanswer (.unif32 hle) hfirst,
    fun hfirst hle => hanswer (.uintnNarrow hle) hfirst, fun hfirst hgt => hanswer (.uintnWide hgt) hfirst⟩

theorem ne_zero_of_toNat_eq_two_pow {k : Nat} (hk : n.toNat = 2 ^ k) : n ≠ 0 := by
  rintro rfl
  exact (Nat.two_pow_pos k).ne hk

/-- Settles O43: the sampler of a power of two masks one draw, and `2^k` fits 32 bits exactly if `k` is below 32. -/
theorem samplerMasksForPowersOfTwo : Obligations.SamplerMasksForPowersOfTwo := fun s n v k g hk hd => by
  have hn := ne_zero_of_toNat_eq_two_pow hk
  have hanswer {i : Instr} {W : Width} (hi : SamplerAt i n W) :
      exec i s = .next ((s.withGen g).respond (rawValue W v &&& (n - 1))) :=
    hi.exec_of_sample hn (sample_eq_some.2 (.inl ⟨(isPowerOfTwo_iff hn).2 ⟨k, hk⟩, v, hd, rfl⟩))
  have hle (hlt : k < 32) : n.toNat ≤ 0xFFFFFFFF := by
    have hpow : 2 ^ k < 2 ^ 32 := Nat.pow_lt_pow_right (by decide) hlt
    omega
  have hgt (hge : 32 ≤ k) : 0xFFFFFFFF < n.toNat := by
    have hpow : 2 ^ 32 ≤ 2 ^ k := Nat.pow_le_pow_right (by decide) hge
    omega
  exact ⟨hanswer (.unif64 n), fun hlt => hanswer (.unif32 (hle hlt)), fun hlt => hanswer (.uintnNarrow (hle hlt)),
    fun hge => hanswer (.uintnWide (hgt hge))⟩

/-- R249: a sample is below its bound, a masked one because the mask is, a reduced one because the remainder is. -/
theorem sample_lt (hn : n ≠ 0) (hs : sample P W n g = .ok (some (r, g'))) : r < n := by
  obtain ⟨-, u, -, rfl⟩ | ⟨-, k, -, u, -, rfl⟩ := sample_eq_some.1 hs
  · have hmask : (rawValue W u &&& (n - 1)).toNat ≤ (n - 1).toNat := by
      rw [BitVec.toNat_and]
      exact Nat.and_le_right
    bv_omega
  · exact BitVec.umod_lt _ ((BitVec.pos_iff_ne_zero n).2 hn)

/-- Settles O47: the bound of a command that responds `OK` is not 0, and its response is a sample below that bound. -/
theorem samplerResultIsBelowTheBound : Obligations.SamplerResultIsBelowTheBound := fun s t i n v hi hx ho => by
  have hn : n ≠ 0 := fun hn =>
    not_ok_of_raise (by decide) ((exec_sampler_of_zero s hn hi).symm.trans hx) ho
  obtain ⟨W, hs⟩ := (effect_of_exec hx ho).sample hi
  exact sample_lt hn hs

/-! ## When a sampler command ends -/

/-- R247: a sampler command ends exactly if its sampler gives a value. -/
theorem sampleCommand_ends_iff (hret : s.retrying = false) :
    (∃ t, sampleCommand W n s = .next t ∧ t.retrying = false) ↔
      ∃ r g, sample hardware W n s.gen = .ok (some (r, g)) := by
  constructor
  · rintro ⟨t, hx, ht⟩
    obtain ⟨r, g, hs, -⟩ | ⟨-, rfl⟩ := sampleCommand_cases hx
    · exact ⟨r, g, hs⟩
    · cases ht
  · rintro ⟨r, g, hs⟩
    exact ⟨_, sampleCommand_of_some hs, hret⟩

/-- The sampler of a bound that is no power of two gives a value exactly if some draw is the first accepted one, with no
limit on how many come before it (R242, R247). -/
theorem sample_isSome_iff (hpow : isPowerOfTwo n = false) :
    (∃ r g', sample P W n g = .ok (some (r, g'))) ↔ ∃ k v g', firstAccepted P W n g k v g' := by
  constructor
  · rintro ⟨r, g', hs⟩
    obtain ⟨htrue, -⟩ | ⟨-, k, -, v, hfirst, -⟩ := sample_eq_some.1 hs
    · exact absurd (hpow.symm.trans htrue) nofun
    · exact ⟨k, v, g', hfirst⟩
  · rintro ⟨k, v, g', hfirst⟩
    exact ⟨_, g', sample_of_firstAccepted hpow hfirst⟩

/-- Settles O44: the command is the sampler at its width, which gives a value exactly if some raw value is accepted. -/
theorem samplerEndsExactlyWhenAccepted : Obligations.SamplerEndsExactlyWhenAccepted :=
  fun s n i W _ hret hn hpow hi => by
  have hat : SamplerAt i n W := by
    obtain ⟨rfl, rfl⟩ | ⟨rfl, rfl, hle⟩ | ⟨rfl, rfl⟩ := hi
    · exact .unif64 n
    · exact .unif32 hle
    · split
      · next hle => exact .uintnNarrow hle
      · next hgt => exact .uintnWide (Nat.lt_of_not_le hgt)
  rw [hat.exec_eq hn, sampleCommand_ends_iff hret, sample_isSome_iff ((isPowerOfTwo_eq_false hn).2 hpow)]

end Sys2Proof.Machine
end

section
/-! PROOF. Faults and reset: a command that faults adds its response and nothing else (spec/60_exceptions.md R273);
a reset abandons the command in progress and the words sent before it (spec/70_reset_and_hazards.md R300, R301), and
words sent early wait their turn (R306). -/

namespace Sys2Proof.Machine

variable {i : Instr} {s t : State} {k : Nat} {ahead es : List PortEvent}

/-! ## A command that faults -/

/-- Settles O51: of the three ends of a command, only a raised fault adds a response that is not `OK`. -/
theorem faultingCommandChangesNothing : Obligations.FaultingCommandChangesNothing := fun i s t r hx ho hr => by
  obtain ⟨g, v, rfl⟩ | ⟨f, -, rfl⟩ | ⟨-, rfl⟩ := exec_cases hx
  · obtain rfl : ⟨.ok, v⟩ = r := by simpa using ho
    exact absurd rfl hr
  · obtain rfl : ⟨f, 0⟩ = r := by simpa using ho
    rfl
  · simp at ho

/-! ## A reset that takes effect -/

/-- R301: the reset next at the inputs takes effect if it arrives now, or if no command can be finished before it. -/
theorem step_of_reset (htail : portTail s.port = .reset k :: ahead)
    (hk : k = 0 ∨ s.retrying = true ∨ decode (visibleWords s) = .error .incomplete) :
    step s = .next (afterReset ahead) := by
  have hreset := takeReset_of_tail htail
  by_cases hnow : resetArrives s = true ∨ s.retrying = true
  · rw [step, if_pos (by simpa using hnow), hreset]
  · have ⟨hlater, hret⟩ : resetArrives s = false ∧ s.retrying = false := by simpa using hnow
    have hd : decode (visibleWords s) = .error .incomplete := by
      obtain rfl | hretrying | hd := hk
      · exact absurd (.inl (resetArrives_eq_true.2 ⟨ahead, htail⟩)) hnow
      · exact absurd (.inr hretrying) hnow
      · exact hd
    rw [step_of_ready hret (resetArrives_eq_false.1 hlater), hd]
    simp only [awaitWords, htail, hreset]

/-- Settles O9: in each of the three cases the step leaves the state after reset, with the later events ahead. -/
theorem resetAbandonsTheCommand : Obligations.ResetAbandonsTheCommand := fun _ _ ahead htail hk =>
  ⟨afterReset ahead, step_of_reset htail hk, rfl, fun _ _ => Vector.getElem_replicate .., rfl, rfl, rfl, rfl, rfl⟩

/-! ## A reset behind the words of commands -/

theorem run_succ_eq_next :
    Host.Core.run core (k + 1) s = .next t ↔ ∃ u, step s = .next u ∧ Host.Core.run core k u = .next t := by
  have hcore : core.step s = step s := rfl
  simp only [Host.Core.run, hcore]
  cases step s <;> simp

/-- One step more is a step from where the run has come to. -/
theorem run_succ_of_run (h : Host.Core.run core k s = .next t) {u : State} (hstep : step t = .next u) :
    Host.Core.run core (k + 1) s = .next u := by
  induction k generalizing s with
  | zero =>
    obtain rfl := Host.Outcome.next.inj h
    exact run_succ_eq_next.2 ⟨u, hstep, rfl⟩
  | succ k ih =>
    obtain ⟨s', hs', hrun⟩ := run_succ_eq_next.1 h
    exact run_succ_eq_next.2 ⟨s', hs', ih hrun⟩

theorem allowOneMore_iterate_reset (ws : List Word) (k m : Nat) (ahead : List PortEvent) :
    allowOneMore^[k] (ws.map .word ++ .reset m :: ahead) = ws.map .word ++ .reset (m + k) :: ahead := by
  induction k with
  | zero => rfl
  | succ k ih => rw [Function.iterate_succ_apply', ih, allowOneMore_map_word, allowOneMore, Nat.add_assoc]

/-- Settles O60: the commands run with a reset behind them that is that many commands away, and then it arrives. -/
theorem resetOvertakesTheWordsSent : Obligations.ResetOvertakesTheWordsSent :=
  fun is ws s t ahead hidle hw h hret => by
  obtain ⟨hasm, -, -⟩ := hidle
  have hrun := run_of_execAll (ws.map .word ++ .reset 0 :: ahead) hasm hw h hret
  rw [allowOneMore_iterate_reset, Nat.zero_add, ← List.append_assoc, ← List.map_append] at hrun
  have hreset : step { t with port := ws.map .word ++ .reset 0 :: ahead } = .next (afterReset ahead) :=
    step_of_reset (portTail_map_word ws _) (.inl rfl)
  exact ⟨hrun, run_succ_of_run hrun hreset⟩

/-! ## Words sent early -/

theorem portTail_append_words_of_nil (h : portTail es = []) (ws : List Word) : portTail (es ++ ws.map .word) = [] := by
  rw [← port_eq_words_append_tail es, h, List.append_nil, portTail_map_word, portTail_map_word_only]

theorem portTail_append_words_of_reset (h : portTail es = .reset k :: ahead) (ws : List Word) :
    portTail (es ++ ws.map .word) = .reset k :: (ahead ++ ws.map .word) := by
  rw [← port_eq_words_append_tail es, h, List.append_assoc, portTail_map_word]
  rfl

theorem portWords_append_words_of_nil (h : portTail es = []) (ws : List Word) :
    portWords (es ++ ws.map .word) = portWords es ++ ws := by
  conv_lhs => rw [← port_eq_words_append_tail es, h, List.append_nil, portWords_map_word, portWords_map_word_only]

/-- What is sent behind a reset is not seen before it. -/
theorem portWords_append_words_of_reset (h : portTail es = .reset k :: ahead) (ws : List Word) :
    portWords (es ++ ws.map .word) = portWords es := by
  conv_lhs => rw [← port_eq_words_append_tail es, h, List.append_assoc, portWords_map_word]
  exact List.append_nil _

/-- The words of those sent that the block can see: none behind a reset. -/
def seenOf (s : State) (ws : List Word) : List Word := if portTail s.port = [] then ws else []

theorem visibleWords_send (s : State) (ws : List Word) :
    visibleWords (s.send ws) = visibleWords s ++ seenOf s ws := by
  rw [visibleWords, visibleWords, seenOf, send_asm, send_port, List.append_assoc]
  obtain htail | ⟨k, ahead, htail⟩ := portTail_cases s.port
  · rw [portWords_append_words_of_nil htail, if_pos htail]
  · rw [portWords_append_words_of_reset htail, if_neg (by simp [htail]), List.append_nil]

/-- A command taken leaves the words sent early on the port, seen by the block or behind a reset. -/
theorem consumeCommand_send (s : State) (rest ws : List Word) :
    consumeCommand (s.send ws) (rest ++ seenOf s ws) = (consumeCommand s rest).send ws := by
  have hport : (rest ++ seenOf s ws).map .word ++ countFinished (portTail (s.port ++ ws.map .word)) =
      rest.map .word ++ countFinished (portTail s.port) ++ ws.map .word := by
    obtain htail | ⟨k, ahead, htail⟩ := portTail_cases s.port
    · simp [seenOf, portTail_append_words_of_nil htail, htail]
    · cases k <;> simp [seenOf, portTail_append_words_of_reset htail, htail]
  simp only [consumeCommand, State.send, hport]

theorem takeReset_send (s : State) (ws : List Word) : takeReset (s.send ws) = (takeReset s).send ws := by
  obtain htail | ⟨k, ahead, htail⟩ := portTail_cases s.port
  · rw [takeReset_of_nil htail, takeReset_of_nil (portTail_append_words_of_nil htail ws)]
  · rw [takeReset_of_tail htail, takeReset_of_tail (portTail_append_words_of_reset htail ws)]
    rfl

theorem resetArrives_send (s : State) (ws : List Word) : resetArrives (s.send ws) = resetArrives s := by
  rw [Bool.eq_iff_iff, resetArrives_eq_true, resetArrives_eq_true, send_port]
  obtain htail | ⟨k, ahead, htail⟩ := portTail_cases s.port
  · simp [portTail_append_words_of_nil htail, htail]
  · simp [portTail_append_words_of_reset htail, htail]

theorem exec_send (ws : List Word) (h : exec i s = .next t) : exec i (s.send ws) = .next (t.send ws) := by
  obtain ⟨-, hport, -⟩ := exec_frame h
  rw [State.send, State.send, hport]
  exact exec_withPort _ h

/-- Settles O11: by the cases of a step, each of which is the same with the words sent. -/
theorem earlyWordsChangeNothing : Obligations.EarlyWordsChangeNothing := fun s t ws hbusy h => by
  have harrives := resetArrives_send s ws
  have hready (hlater : resetArrives s = false) (hret : s.retrying = false) :=
    step_of_ready (s := s.send ws) hret (resetArrives_eq_false.1 (harrives.trans hlater))
  obtain ⟨hnow, rfl⟩ | ⟨hlater, hret, i, rest, hd, hx⟩ | ⟨hlater, hret, why, rest, hd, rfl⟩ | ⟨hlater, hret, hd, rfl⟩ :=
    step_cases h
  · rw [step, harrives, send_retrying, if_pos (by simpa using hnow), takeReset_send]
  · have hsent : decode (visibleWords (s.send ws)) = .ok (i, rest ++ seenOf s ws) := by
      rw [visibleWords_send, decode_append _ (by simp [hd]), hd]
    rw [hready hlater hret, hsent]
    dsimp only
    rw [consumeCommand_send]
    exact exec_send ws hx
  · have hsent : decode (visibleWords (s.send ws)) = .error (.illegal why (rest ++ seenOf s ws)) := by
      rw [visibleWords_send, decode_append _ (by simp [hd]), hd]
    rw [hready hlater hret, hsent]
    dsimp only
    rw [consumeCommand_send]
    rfl
  · have htail : portTail s.port ≠ [] := by
      obtain hretrying | hwhole | htail := hbusy
      · exact absurd (hret.symm.trans hretrying) nofun
      · exact absurd hd hwhole
      · exact htail
    obtain ⟨hnil, -⟩ | ⟨k, ahead, hreset, hwait⟩ := awaitWords_cases s
    · exact absurd hnil htail
    · have hseen : visibleWords (s.send ws) = visibleWords s := by simp [visibleWords_send, seenOf, htail]
      rw [step_of_reset (portTail_append_words_of_reset hreset ws) (.inr (.inr (hseen ▸ hd))), hwait]
      rfl

end Sys2Proof.Machine
end

section
/-! PROOF. What the host computes from results (spec/47_sampler.md R254 to R257): each step of the inside-out shuffle
adds one number to a permutation, a byte buffer is the draws' bytes one draw after the other, and `Int63` is
half a draw. -/

namespace Sys2Proof.Machine

/-! ## The inside-out shuffle -/

/-- R254: a step of the shuffle adds the number of cells there were, wherever it puts it. -/
theorem insideOut_perm (p : List Nat) {j : Nat} (hj : j ≤ p.length) : (insideOut p j).Perm (p ++ [p.length]) := by
  obtain hlt | rfl := Nat.lt_or_eq_of_le hj
  · have hcopied : p.getD j 0 = p[j]?.getD p.length := by
      rw [List.getD_eq_getElem?_getD, List.getElem?_eq_getElem hlt, Option.getD_some, Option.getD_some]
    calc insideOut p j
      _ = p.set j p.length ++ [p[j]?.getD p.length] := by rw [insideOut, List.set_append_left _ _ hlt, hcopied]
      List.Perm _ (p[j]?.getD p.length :: p.set j p.length) := List.perm_append_singleton ..
      List.Perm _ (p.length :: p) := p.getD_set_perm_cons j p.length
      List.Perm _ (p ++ [p.length]) := (List.perm_append_singleton ..).symm
  · simp [insideOut]

theorem uperm_append (js : List Nat) (j : Nat) : uperm (js ++ [j]) = insideOut (uperm js) j := List.foldl_concat ..

/-- Settles O55: by induction over the results, the last one putting the last number in its place. -/
theorem upermIsAPermutation : Obligations.UpermIsAPermutation := fun js => by
  induction js using List.reverseRecOn with
  | nil => exact fun _ => .refl _
  | append_singleton js j ih =>
    intro hbound
    have hperm : (uperm js).Perm (List.range js.length) := ih fun i hi => by
      have hle := hbound i (by rw [List.length_append]; omega)
      rwa [List.getElem_append_left hi] at hle
    have hlength : (uperm js).length = js.length := by simpa using hperm.length_eq
    have hj : j ≤ js.length := by simpa using hbound js.length (by simp)
    rw [uperm_append, List.length_append, List.length_singleton, List.range_succ]
    refine (insideOut_perm _ (hlength.symm ▸ hj)).trans ?_
    rw [hlength]
    exact hperm.append_right _

/-! ## `Int63` -/

/-- Settles O56: a word shifted right once has its sign bit clear, so it reads the same signed and unsigned. -/
theorem int63IsHalfTheDraw : Obligations.Int63IsHalfTheDraw := fun v => by
  have hhalf : (v >>> 1).toNat = v.toNat / 2 := by rw [BitVec.toNat_ushiftRight, Nat.shiftRight_eq_div_pow, Nat.pow_one]
  have hlt := v.isLt
  have hsigned : int63 v = (v.toNat / 2 : Nat) := by
    rw [int63, BitVec.toInt_eq_toNat_of_lt (by omega), hhalf]
  omega

/-! ## A buffer of bytes -/

theorem length_flatMap_bytesLittle (results : List Word) :
    (results.flatMap bytesLittle).length = 8 * results.length := by
  simp [List.length_flatMap, Nat.mul_comm]

/-- Byte `8k + t` of the draws' bytes is byte `t` of draw `k`. -/
theorem getElem?_flatMap_bytesLittle (results : List Word) {k t : Nat} (hk : k < results.length) (ht : t < 8) :
    (results.flatMap bytesLittle)[8 * k + t]? = some (results[k].extractLsb' (8 * t) 8) := by
  induction results generalizing k with
  | nil => simp at hk
  | cons w results ih =>
    rw [List.flatMap_cons]
    cases k with
    | zero =>
      rw [List.getElem?_append_left (by simpa using ht), Nat.mul_zero, Nat.zero_add, getElem?_bytesLittle w ht]
      rfl
    | succ k =>
      have hindex : 8 * (k + 1) + t - 8 = 8 * k + t := by omega
      rw [List.getElem?_append_right (by simp; omega), length_bytesLittle, hindex]
      exact ih (Nat.lt_of_succ_lt_succ hk)

/-- Settles O57: `ceil(b / 8)` draws have at least `b` bytes, and the buffer is the first `b` of them. -/
theorem bulkBytesAreLittleEndian : Obligations.BulkBytesAreLittleEndian := fun b results hlength => by
  refine ⟨by rw [bulkBytesCommands, hlength], ?_, fun k t hk ht hb => ?_⟩
  · rw [bulkBytes, List.length_take, length_flatMap_bytesLittle]
    omega
  · rw [bulkBytes, List.getElem?_take_of_lt hb, getElem?_flatMap_bytesLittle results hk ht]

end Sys2Proof.Machine
end
